-- ==== Sys2Proof/Word.lean ====
section
/-!
DEFINITION. The byte, the character and the string of the spec (R8).
Every value on the wires and in the operands is a byte, so BitVec 8 is the only word of the model.
-/

namespace Sys2Proof

/-- A byte: 8 bits, bit 0 the least significant, unsigned (R8). -/
abbrev Byte := BitVec 8

/-- A character is an 8-bit code (R8, D28). -/
abbrev Chr := BitVec 8

/-- A string is a finite list of characters, index 0 at the left (R8). No length bound (D28). -/
abbrev Str := List Chr

end Sys2Proof
end

