-- ==== Sys2Proof/Config.lean ====
section
/-!
DEFINITION. What an implementation fixes (the OPEN parameters of R7) and the free values that the
outside agents of R5 supply. The free values are opaque constants: no proof can see what they are.
-/

namespace Sys2Proof

/-- The display geometry (R21): grids x segments (D2). -/
inductive Mode where
  | m4x13
  | m5x12
  | m6x11
  | m7x10
  deriving DecidableEq, Repr, Inhabited

/-- One value of type `α` for each mode: a parameter that R7 gives the type `Mode -> α`, as plain data. -/
structure PerMode (α : Type) where
  m4x13 : α
  m5x12 : α
  m6x11 : α
  m7x10 : α
  deriving DecidableEq, Repr, Inhabited

/-- An entry of KEYMAP (R27, R79): the bit `bitIdx` of scan byte `byteIdx` stands for the key `key`. -/
structure KeyEntry where
  byteIdx : Fin 5
  bitIdx : Fin 8
  key : Chr
  deriving DecidableEq, Repr, Inhabited

/-- The OPEN parameters of R7 (D3 to D7), as plain data.
`queueCap` is a positive number (D7). A table entry has 7 bits, which is the rule that every entry of
SEG_DIGIT and SEG_LETTER has bit 7 clear (R28, D4). -/
structure Params where
  queueCap : ℕ+
  cmdMode : PerMode Byte
  cmdDataAutoinc : Byte
  cmdBright : Vector Byte 16
  cmdReadKeys : Byte
  base : PerMode Byte
  segDigit : Vector (BitVec 7) 10
  segLetter : Vector (BitVec 7) 26
  keymap : List KeyEntry
  banner : Str
  deriving DecidableEq, Repr, Inhabited

/-- What one sample of the data line yields (R10): 0, 1, or undefined. -/
inductive Sample where
  | zero
  | one
  | undef
  deriving DecidableEq, Repr, Inhabited

/-- An answer of the wall clock: hh in 0..23, mm and ss in 0..59 (R163). -/
structure ClockTime where
  hh : Fin 24
  mm : Fin 60
  ss : Fin 60
  deriving DecidableEq, Repr, Inhabited

/-- The agents that take steps by themselves and compete for the grant (R5, R33). -/
inductive Agent where
  | loop
  | caller (i : Nat)
  deriving DecidableEq, Repr, Inhabited

namespace Config

/-- FREE. The parameters this block was built with: R7 leaves them OPEN, so no value is chosen (log 2). -/
opaque installed : Params

/-- FREE. The Device oracle (R5, D33): the `n`-th free draw, when it is a sample of the data line (log 4). -/
opaque deviceSample : Nat → Sample

/-- FREE. The Clock oracle (R163): the `n`-th free draw, when it is a reading of the clock (log 5). -/
opaque clockReading : Nat → ClockTime

/-- FREE. The agent that is granted next (R33, U2: any order, no fairness): the `n`-th free draw, when
it is a choice among the waiting agents (log 6). -/
opaque nextAgent : Nat → Agent

/-- MODE_RESET of R7 and R188. -/
def modeReset : Mode := .m6x11

/-- BRIGHT_RESET of R7 and R188. -/
def brightReset : Fin 16 := 10

/-- TIME_MODE_RESET of R7 and R188 (D19). -/
def timeModeReset : Bool := false

/-- TEXT_RESET of R7 and R188 (D19). -/
def textReset : Str := []

/-- PRESUMED (log 3). KEYMAP_EX, the example key map of R79: "an example for the vectors only". -/
def keymapEx : List KeyEntry :=
  [⟨0, 0, 0x31⟩, ⟨0, 1, 0x32⟩, ⟨0, 3, 0x33⟩, ⟨0, 4, 0x34⟩, ⟨1, 0, 0x35⟩,
   ⟨1, 1, 0x36⟩, ⟨1, 3, 0x37⟩, ⟨1, 4, 0x38⟩, ⟨2, 0, 0x39⟩, ⟨2, 1, 0x30⟩,
   ⟨2, 3, 0x41⟩, ⟨2, 4, 0x42⟩, ⟨3, 0, 0x43⟩, ⟨3, 1, 0x44⟩, ⟨3, 3, 0x45⟩,
   ⟨3, 4, 0x46⟩, ⟨4, 0, 0x47⟩, ⟨4, 1, 0x48⟩, ⟨4, 3, 0x49⟩, ⟨4, 4, 0x4A⟩]

/-- PRESUMED (log 3). The default instantiation of R7, R74 and R76, by the spec's own mark from general
knowledge; it serves the numeric vectors of 95_test_vectors.md and stands in no rule. The machine does
not use it. -/
def defaultParams : Params where
  queueCap := 64
  cmdMode := ⟨0x00, 0x01, 0x02, 0x03⟩
  cmdDataAutoinc := 0x40
  cmdBright := #v[0x80, 0x81, 0x82, 0x83, 0x84, 0x85, 0x86, 0x87,
    0x88, 0x89, 0x8A, 0x8B, 0x8C, 0x8D, 0x8E, 0x8F]
  cmdReadKeys := 0x42
  base := ⟨0xC0, 0xC0, 0xC0, 0xC0⟩
  segDigit := #v[0x3F, 0x06, 0x5B, 0x4F, 0x66, 0x6D, 0x7D, 0x07, 0x7F, 0x6F]
  segLetter := #v[0x77, 0x7C, 0x39, 0x5E, 0x79, 0x71, 0x3D, 0x76, 0x30, 0x1E, 0x75, 0x38, 0x15,
    0x37, 0x3F, 0x73, 0x6B, 0x33, 0x6D, 0x78, 0x3E, 0x3E, 0x2A, 0x76, 0x6E, 0x5B]
  keymap := keymapEx
  banner := [0x48, 0x45, 0x4C, 0x4C, 0x4F]

end Config

end Sys2Proof
end

