-- ==== Sys2Proof/Syntax.lean ====
section
/-!
DEFINITION. The instructions: one constructor for each row of the opcode table, 26 requests of the
operation port (R80) and five wire bytes (R74, R75), with the operands of R81 and R88.
-/

namespace Sys2Proof

/-- Where a word of the opcode table stands (R80, R89): a request on the operation port, or a single
byte on the 3-wire bus (the rows of format WIRE). The same byte may be a tag on the port and a
command on the wire (0x40 is GETBRT and CMD_DATA_AUTOINC), so a word has a meaning only with its
channel (log 9). -/
inductive Channel where
  | port
  | wire
  deriving DecidableEq, Repr, Inhabited

/-- One constructor for each row of the opcode table. -/
inductive Instr where
  -- the primitive requests (R190)
  /-- SENDBYTE `b` (R100). -/
  | sendbyte (b : Byte)
  /-- SENDCMD `c` (R101). -/
  | sendcmd (c : Byte)
  /-- READBYTE (R102). -/
  | readbyte
  /-- CHAR2SEG `c` (R120). -/
  | char2seg (c : Chr)
  /-- RENDER `text` (R121). -/
  | render (text : Str)
  /-- WRREG `a`, `d` (R122). -/
  | wrreg (a : Byte) (d : Byte)
  /-- WRGRID (R123). -/
  | wrgrid
  /-- WRRAWB `b[0..13]` (R124). -/
  | wrrawb (b : List Byte)
  /-- INITSEQ (R126). -/
  | initseq
  /-- SCANKEYS (R140). -/
  | scankeys
  /-- DECODEKEY `k[0..4]` (R141). -/
  | decodekey (k : List Byte)
  /-- PUSHKEY `c` (R142). -/
  | pushkey (c : Chr)
  -- the control surface (section 2 to 7 of 44_control_surface.md)
  /-- GETBRT (R176). -/
  | getbrt
  /-- SETBRT `v` (R177): any integer; the port carries it as i32. -/
  | setbrt (v : Int)
  /-- GETTM (R178). -/
  | gettm
  /-- SETTM `f` (R179): the byte 0 is off, anything else is on. -/
  | settm (f : Byte)
  /-- GETTXT (R180). -/
  | gettxt
  /-- SETTXT `s` (R181). -/
  | settxt (s : Str)
  /-- GETMODE (R182). -/
  | getmode
  /-- SETMODE `sel` (R183): the selector byte of R88. -/
  | setmode (sel : Byte)
  /-- POPKEY (R184). -/
  | popkey
  /-- CLRKEYS (R185). -/
  | clrkeys
  /-- SHOWKEYS (R186). -/
  | showkeys
  /-- WRRAW `s` (R187). -/
  | wrraw (s : Str)
  -- engine start and shutdown
  /-- START `lines_ok` (R188): the byte 0 is false, anything else is true. -/
  | start (linesOk : Byte)
  /-- STOP (R189). -/
  | stop
  -- the wire bytes (R74, R75)
  /-- The mode command byte of mode `m` (R74). -/
  | cmdMode (m : Mode)
  /-- The auto-increment data command byte (R74). -/
  | cmdDataAutoinc
  /-- The read-keys command byte (R74). -/
  | cmdReadKeys
  /-- The address byte of offset `off`, 0..13 (R75). -/
  | addr (off : BitVec 4)
  /-- The brightness command byte of value `b`, 0..15 (R74). -/
  | cmdBright (b : BitVec 4)
  deriving DecidableEq, Repr, Inhabited

/-- The channel on which an instruction's word stands (R80, R89). -/
def Instr.channel : Instr → Channel
  | .sendbyte _ | .sendcmd _ | .readbyte | .char2seg _ | .render _ | .wrreg _ _ | .wrgrid
  | .wrrawb _ | .initseq | .scankeys | .decodekey _ | .pushkey _ | .getbrt | .setbrt _ | .gettm
  | .settm _ | .gettxt | .settxt _ | .getmode | .setmode _ | .popkey | .clrkeys | .showkeys
  | .wrraw _ | .start _ | .stop => .port
  | .cmdMode _ | .cmdDataAutoinc | .cmdReadKeys | .addr _ | .cmdBright _ => .wire

end Sys2Proof
end

