-- ==== Sys2Proof/WellFormed.lean ====
section
/-!
DEFINITION. Which instructions the encodings of R81, R75 and R89 can carry. Everything an operand's
type does not already say is checked here.
-/

namespace Sys2Proof

/-- A string the port's `str` can carry: its length fits the two length bytes (R81, D28). -/
def strFits (s : Str) : Bool := s.length < 65536

/-- An integer the port's `i32` can carry (R81). -/
def i32Fits (v : Int) : Bool := -2147483648 ≤ v && v < 2147483648

/-- Well-formedness of an instruction: its operands have the lengths and ranges of R75, R80 and R81. -/
def Instr.wf : Instr → Bool
  | .render text => strFits text
  | .settxt s => strFits s
  | .wrraw s => strFits s
  | .wrrawb b => b.length == 14
  | .decodekey k => k.length == 5
  | .setbrt v => i32Fits v
  | .addr off => off.toNat ≤ 13
  | .sendbyte _ | .sendcmd _ | .readbyte | .char2seg _ | .wrreg _ _ | .wrgrid | .initseq
  | .scankeys | .pushkey _ | .getbrt | .gettm | .settm _ | .gettxt | .getmode | .setmode _
  | .popkey | .clrkeys | .showkeys | .start _ | .stop | .cmdMode _ | .cmdDataAutoinc
  | .cmdReadKeys | .cmdBright _ => true

end Sys2Proof
end

