-- ==== Sys2Proof/Decode.lean ====
section
/-!
DEFINITION. Decoding, total on any bytes and refusing by name (R80, R81, R83, R88, R89), the encoder
written from the same tables, and the opcode table itself.
-/

namespace Sys2Proof

/-- Why bytes are no instruction (R83; R75 and R74 for the wire). On the operation port each of these is
answered with EMalformed (R201, cause 4). -/
inductive DecodeError where
  /-- A request of no bytes at all. -/
  | emptyRequest
  /-- A tag byte outside the table of R80. -/
  | unknownTag (t : Byte)
  /-- Fewer operand bytes than the tag asks for. -/
  | tooShort
  /-- More operand bytes than the tag asks for. -/
  | tooLong
  /-- A byte that matches no WIRE row of the opcode table, or an address offset above 13 (log 11). -/
  | unknownWireByte (b : Byte)
  deriving DecidableEq, Repr, Inhabited

/-! ## Operands (R81) -/

/-- No operand. -/
def opNone (i : Instr) : List Byte → Except DecodeError Instr
  | [] => .ok i
  | _ :: _ => .error .tooLong

/-- One byte. -/
def opB8 (f : Byte → Instr) : List Byte → Except DecodeError Instr
  | [] => .error .tooShort
  | [b] => .ok (f b)
  | _ :: _ :: _ => .error .tooLong

/-- Two bytes. -/
def opB8B8 (f : Byte → Byte → Instr) : List Byte → Except DecodeError Instr
  | [] | [_] => .error .tooShort
  | [a, b] => .ok (f a b)
  | _ :: _ :: _ :: _ => .error .tooLong

/-- The 32-bit word of four bytes, least significant byte first (R81). -/
def word32 (b0 b1 b2 b3 : Byte) : BitVec 32 := b3 ++ b2 ++ b1 ++ b0

/-- Four bytes, least significant first, two's complement. -/
def opI32 (f : Int → Instr) : List Byte → Except DecodeError Instr
  | [] | [_] | [_, _] | [_, _, _] => .error .tooShort
  | [b0, b1, b2, b3] => .ok (f (word32 b0 b1 b2 b3).toInt)
  | _ :: _ :: _ :: _ :: _ :: _ => .error .tooLong

/-- Exactly `n` bytes in index order. -/
def opBytes (n : Nat) (f : List Byte → Instr) (bs : List Byte) : Except DecodeError Instr :=
  if bs.length < n then .error .tooShort
  else if n < bs.length then .error .tooLong
  else .ok (f bs)

/-- A string: two bytes of length, least significant first, then that many characters. -/
def opStr (f : Str → Instr) : List Byte → Except DecodeError Instr
  | [] | [_] => .error .tooShort
  | l0 :: l1 :: cs => opBytes (l0.toNat + 256 * l1.toNat) f cs

/-! ## The decoders -/

/-- The request whose tag is `t` and whose operand bytes are `rest` (R80). -/
def decodeTag (t : Byte) (rest : List Byte) : Except DecodeError Instr :=
  match t with
  | 0x01#8 => opB8 .sendbyte rest
  | 0x02#8 => opB8 .sendcmd rest
  | 0x03#8 => opNone .readbyte rest
  | 0x10#8 => opB8 .char2seg rest
  | 0x11#8 => opStr .render rest
  | 0x12#8 => opB8B8 .wrreg rest
  | 0x13#8 => opNone .wrgrid rest
  | 0x14#8 => opBytes 14 .wrrawb rest
  | 0x15#8 => opNone .initseq rest
  | 0x20#8 => opNone .scankeys rest
  | 0x21#8 => opBytes 5 .decodekey rest
  | 0x22#8 => opB8 .pushkey rest
  | 0x40#8 => opNone .getbrt rest
  | 0x41#8 => opI32 .setbrt rest
  | 0x42#8 => opNone .gettm rest
  | 0x43#8 => opB8 .settm rest
  | 0x44#8 => opNone .gettxt rest
  | 0x45#8 => opStr .settxt rest
  | 0x46#8 => opNone .getmode rest
  | 0x47#8 => opB8 .setmode rest
  | 0x48#8 => opNone .popkey rest
  | 0x49#8 => opNone .clrkeys rest
  | 0x4A#8 => opNone .showkeys rest
  | 0x4B#8 => opStr .wrraw rest
  | 0x70#8 => opB8 .start rest
  | 0x7F#8 => opNone .stop rest
  | _ => .error (.unknownTag t)

/-- A request of the operation port: one tag byte, then the operand (R80, R83, R89). -/
def decodePort : List Byte → Except DecodeError Instr
  | [] => .error .emptyRequest
  | t :: rest => decodeTag t rest

/-- The mode that the two bits `mm` of the mode command select (R74). -/
def modeOfBits (mm : BitVec 2) : Mode :=
  match mm with
  | 0#2 => .m4x13
  | 1#2 => .m5x12
  | 2#2 => .m6x11
  | 3#2 => .m7x10

/-- The two bits `mm` that stand for a mode in the mode command (R74). -/
def bitsOfMode : Mode → BitVec 2
  | .m4x13 => 0
  | .m5x12 => 1
  | .m6x11 => 2
  | .m7x10 => 3

/-- One byte on the wire, by the patterns of R74: the default instantiation of the OPEN parameters. -/
def decodeWireByte (b : Byte) : Except DecodeError Instr :=
  if b.extractLsb' 2 6 = 0#6 then .ok (.cmdMode (modeOfBits (b.extractLsb' 0 2)))
  else if b = 0x40#8 then .ok .cmdDataAutoinc
  else if b = 0x42#8 then .ok .cmdReadKeys
  else if b.extractLsb' 4 4 = 0x8#4 then .ok (.cmdBright (b.extractLsb' 0 4))
  else if b.extractLsb' 4 4 = 0xC#4 ∧ (b.extractLsb' 0 4).toNat ≤ 13 then
    .ok (.addr (b.extractLsb' 0 4))
  else .error (.unknownWireByte b)

/-- A word on the wire is one byte (R89). -/
def decodeWire : List Byte → Except DecodeError Instr
  | [] => .error .tooShort
  | [b] => decodeWireByte b
  | _ :: _ :: _ => .error .tooLong

/-- The decoder: bytes and the channel they stand on to an instruction or a named refusal. -/
def decode : Channel → List Byte → Except DecodeError Instr
  | .port, bs => decodePort bs
  | .wire, bs => decodeWire bs

/-! ## The encoder -/

/-- The four bytes of an i32, least significant first, two's complement (R81). -/
def i32Bytes (v : Int) : List Byte :=
  let w := BitVec.ofInt 32 v
  [w.extractLsb' 0 8, w.extractLsb' 8 8, w.extractLsb' 16 8, w.extractLsb' 24 8]

/-- The bytes of a string: two length bytes, least significant first, then the characters (R81). -/
def strBytes (s : Str) : List Byte :=
  BitVec.ofNat 8 s.length :: BitVec.ofNat 8 (s.length / 256) :: s

/-- The bytes of an instruction: tag and operand of R80 and R81, or the wire byte of R74 and R75. -/
def encode : Instr → List Byte
  | .sendbyte b => [0x01#8, b]
  | .sendcmd c => [0x02#8, c]
  | .readbyte => [0x03#8]
  | .char2seg c => [0x10#8, c]
  | .render text => 0x11#8 :: strBytes text
  | .wrreg a d => [0x12#8, a, d]
  | .wrgrid => [0x13#8]
  | .wrrawb b => 0x14#8 :: b
  | .initseq => [0x15#8]
  | .scankeys => [0x20#8]
  | .decodekey k => 0x21#8 :: k
  | .pushkey c => [0x22#8, c]
  | .getbrt => [0x40#8]
  | .setbrt v => 0x41#8 :: i32Bytes v
  | .gettm => [0x42#8]
  | .settm f => [0x43#8, f]
  | .gettxt => [0x44#8]
  | .settxt s => 0x45#8 :: strBytes s
  | .getmode => [0x46#8]
  | .setmode sel => [0x47#8, sel]
  | .popkey => [0x48#8]
  | .clrkeys => [0x49#8]
  | .showkeys => [0x4A#8]
  | .wrraw s => 0x4B#8 :: strBytes s
  | .start linesOk => [0x70#8, linesOk]
  | .stop => [0x7F#8]
  | .cmdMode m => [0#6 ++ bitsOfMode m]
  | .cmdDataAutoinc => [0x40#8]
  | .cmdReadKeys => [0x42#8]
  | .addr off => [0xC#4 ++ off]
  | .cmdBright b => [0x8#4 ++ b]

/-! ## The opcode table (R80, R89) -/

/-- The format labels of R89. -/
inductive Format where
  | t
  | tB8
  | tB8B8
  | tI32
  | tStr
  | t5
  | t14
  | wire
  deriving DecidableEq, Repr

/-- One row of the opcode table: mnemonic, format, and the pattern of its first byte under a mask. -/
structure OpRow where
  mnemonic : String
  format : Format
  pattern : Byte
  mask : Byte
  deriving DecidableEq, Repr

/-- The requests of R80. -/
def portRows : List OpRow :=
  [⟨"SENDBYTE", .tB8, 0x01, 0xFF⟩, ⟨"SENDCMD", .tB8, 0x02, 0xFF⟩, ⟨"READBYTE", .t, 0x03, 0xFF⟩,
   ⟨"CHAR2SEG", .tB8, 0x10, 0xFF⟩, ⟨"RENDER", .tStr, 0x11, 0xFF⟩, ⟨"WRREG", .tB8B8, 0x12, 0xFF⟩,
   ⟨"WRGRID", .t, 0x13, 0xFF⟩, ⟨"WRRAWB", .t14, 0x14, 0xFF⟩, ⟨"INITSEQ", .t, 0x15, 0xFF⟩,
   ⟨"SCANKEYS", .t, 0x20, 0xFF⟩, ⟨"DECODEKEY", .t5, 0x21, 0xFF⟩, ⟨"PUSHKEY", .tB8, 0x22, 0xFF⟩,
   ⟨"GETBRT", .t, 0x40, 0xFF⟩, ⟨"SETBRT", .tI32, 0x41, 0xFF⟩, ⟨"GETTM", .t, 0x42, 0xFF⟩,
   ⟨"SETTM", .tB8, 0x43, 0xFF⟩, ⟨"GETTXT", .t, 0x44, 0xFF⟩, ⟨"SETTXT", .tStr, 0x45, 0xFF⟩,
   ⟨"GETMODE", .t, 0x46, 0xFF⟩, ⟨"SETMODE", .tB8, 0x47, 0xFF⟩, ⟨"POPKEY", .t, 0x48, 0xFF⟩,
   ⟨"CLRKEYS", .t, 0x49, 0xFF⟩, ⟨"SHOWKEYS", .t, 0x4A, 0xFF⟩, ⟨"WRRAW", .tStr, 0x4B, 0xFF⟩,
   ⟨"START", .tB8, 0x70, 0xFF⟩, ⟨"STOP", .t, 0x7F, 0xFF⟩]

/-- The wire bytes of R74 and R75. -/
def wireRows : List OpRow :=
  [⟨"CMD_MODE", .wire, 0x00, 0xFC⟩, ⟨"CMD_DATA_AUTOINC", .wire, 0x40, 0xFF⟩,
   ⟨"CMD_READ_KEYS", .wire, 0x42, 0xFF⟩, ⟨"ADDR", .wire, 0xC0, 0xF0⟩,
   ⟨"CMD_BRIGHT", .wire, 0x80, 0xF0⟩]

/-- The mnemonic of an instruction's row. -/
def Instr.mnemonic : Instr → String
  | .sendbyte _ => "SENDBYTE"
  | .sendcmd _ => "SENDCMD"
  | .readbyte => "READBYTE"
  | .char2seg _ => "CHAR2SEG"
  | .render _ => "RENDER"
  | .wrreg _ _ => "WRREG"
  | .wrgrid => "WRGRID"
  | .wrrawb _ => "WRRAWB"
  | .initseq => "INITSEQ"
  | .scankeys => "SCANKEYS"
  | .decodekey _ => "DECODEKEY"
  | .pushkey _ => "PUSHKEY"
  | .getbrt => "GETBRT"
  | .setbrt _ => "SETBRT"
  | .gettm => "GETTM"
  | .settm _ => "SETTM"
  | .gettxt => "GETTXT"
  | .settxt _ => "SETTXT"
  | .getmode => "GETMODE"
  | .setmode _ => "SETMODE"
  | .popkey => "POPKEY"
  | .clrkeys => "CLRKEYS"
  | .showkeys => "SHOWKEYS"
  | .wrraw _ => "WRRAW"
  | .start _ => "START"
  | .stop => "STOP"
  | .cmdMode _ => "CMD_MODE"
  | .cmdDataAutoinc => "CMD_DATA_AUTOINC"
  | .cmdReadKeys => "CMD_READ_KEYS"
  | .addr _ => "ADDR"
  | .cmdBright _ => "CMD_BRIGHT"

/-- The opcode-table rows of one channel. -/
def rowsOf : Channel → List OpRow
  | .port => portRows
  | .wire => wireRows

/-- The row of the opcode table that an instruction stands in. -/
def Instr.row (i : Instr) : Option OpRow :=
  (rowsOf i.channel).find? fun r => r.mnemonic == i.mnemonic

/-- How many operand bytes a request of this format has when they are all 0 (R81: a str of length 0 is
its two length bytes). -/
def Format.zeroOperandBytes : Format → Nat
  | .t | .wire => 0
  | .tB8 => 1
  | .tB8B8 | .tStr => 2
  | .tI32 => 4
  | .t5 => 5
  | .t14 => 14

/-- The `n` low bytes of `w`, first byte (bits 7..0) first. -/
def natBytes : Nat → Nat → List Byte
  | 0, _ => []
  | n + 1, w => BitVec.ofNat 8 w :: natBytes n (w / 256)

/-- The operand bytes of zeros that follow the table's bits of a request with tag `t`; none where `t` is
no request tag. -/
def zeroOperandOf (t : Byte) : Option Nat :=
  (portRows.find? fun r => r.pattern == t).map fun r => r.format.zeroOperandBytes

/-- The channel and the bytes of an instruction whose bits are `w`, `nbits` of them given by the opcode
table and every bit above them 0. A word whose first byte is a request tag is a request; any other
word is a byte on the wire (log 9). -/
def layoutWord (nbits w : Nat) : Channel × List Byte :=
  let bs := natBytes (nbits / 8) w
  match bs with
  | [] => (.port, [])
  | t :: rest =>
    match zeroOperandOf t with
    | some n => (.port, bs ++ List.replicate (n - rest.length) 0#8)
    | none => (.wire, bs)

/-- The instruction the decoder reads from an instruction whose bits are `w`. -/
def decodeTableWord (nbits w : Nat) : Option Instr :=
  match layoutWord nbits w with
  | (ch, bs) => (decode ch bs).toOption

end Sys2Proof
end

