-- ==== Sys2Proof/Machine/State.lean ====
section
/-!
DEFINITION. The state: the record of R20, and beside it the model's own fields (parameters, the
outside agents' inputs, and the observations of R6), the outcomes a step can have, and the machine at
power-on.
-/

namespace Sys2Proof.Machine

/-- The three lines of the Signal Line Abstraction (R10). -/
inductive Line where
  /-- STROBE. -/
  | stb
  /-- CLOCK. -/
  | clk
  /-- DATA. -/
  | dio
  deriving DecidableEq, Repr

/-- The direction of DATA (R10, R30). -/
inductive Direction where
  | input
  | output
  deriving DecidableEq, Repr

/-- The four pacing pauses (R7, R161). -/
inductive Pause where
  | startupHold
  | bannerHold
  | timePause
  | scanPause
  deriving DecidableEq, Repr

/-- The pin-event alphabet of R10. -/
inductive PinEvent where
  /-- `L(line, v)`: the line is driven to `v`. -/
  | level (l : Line) (v : Bool)
  /-- `Dir(d)`: the direction of DATA. -/
  | dir (d : Direction)
  /-- `S(x)`: DATA is sampled and yields `x`. -/
  | sample (x : Sample)
  /-- `W`: one settle delay (R105). -/
  | settle
  /-- `P(T)`: one pacing pause (R161). -/
  | pause (p : Pause)
  deriving DecidableEq, Repr

/-- The pin registers (R30): S.stb, S.clk, S.dio, S.dio_dir. -/
structure Pins where
  stb : Bool
  clk : Bool
  dio : Bool
  dioDir : Direction
  deriving DecidableEq, Repr

/-- The polling loop's state register (R31). -/
inductive Phase where
  | off
  | failed
  | startup (k : Fin 12)
  | steady
  | halted
  deriving DecidableEq, Repr

/-- The holder of the bus-and-state grant (R33). -/
inductive Owner where
  | none
  | loop
  | caller (i : Nat)
  deriving DecidableEq, Repr

/-- The status of a response (R12, R82, R200). -/
inductive Status where
  | ok
  | eMalformed
  | eNotRunning
  | eFatalLines
  | eAlreadyRunning
  deriving DecidableEq, Repr

/-- The value of a response (R12, R80, R81): none, one byte, a list of bytes in index order, an optional
byte, or a string. -/
inductive Value where
  | none
  | b8 (b : Byte)
  | bytes (bs : List Byte)
  | opt8 (o : Option Byte)
  | str (s : Str)
  deriving DecidableEq, Repr

/-- A response (R12): the holder of the grant it goes to, the status, and the value. -/
structure Response where
  dest : Owner
  status : Status
  value : Value
  deriving DecidableEq, Repr

/-- A request that a caller has issued (R80, R175): its bytes, and the channel they stand on (log 9). -/
structure Request where
  caller : Nat
  channel : Channel
  bytes : List Byte
  deriving DecidableEq, Repr

/-- Why a step stops with a fault. There is no constructor: the block has no trap and no fault (R207,
R210, R211), a failing request is answered and the machine goes on. Safe: nothing is left out. -/
inductive Fault where
  deriving DecidableEq, Repr

/-- Why a step refuses. -/
inductive Refusal where
  /-- The instruction has no meaning in the model. Raised by an arm of `exec` only, and by none now, so no
  step refuses. Safe: the machine stops. -/
  | notModelled (mnemonic : String)
  deriving DecidableEq, Repr

/-- The state. The first block of fields is the record of R20; the second is the model's own. -/
structure State where
  /-- S.mode (R21). -/
  mode : Mode
  /-- S.brightness, an integer in 0..15 (R22). -/
  brightness : Fin 16
  /-- S.Grid[0..6] (R23). -/
  grid : Vector Byte 7
  /-- S.text (R24). -/
  text : Str
  /-- S.time_mode (R25). -/
  timeMode : Bool
  /-- S.queue, oldest first (R26). -/
  queue : List Chr
  /-- S.stb, S.clk, S.dio, S.dio_dir (R30). -/
  pins : Pins
  /-- S.phase (R31). -/
  phase : Phase
  /-- S.stop_req (R32). -/
  stopReq : Bool
  /-- S.owner (R33). -/
  owner : Owner
  /-- MODEL. The OPEN parameters of R7; no rule writes them (R34, log 2). -/
  cfg : Params
  /-- MODEL. The requests issued and not yet served, oldest first (log 8). -/
  pending : List Request
  /-- MODEL. The callers whose STOP waits for its second operation (R189, log 12). -/
  stopWait : List Owner
  /-- MODEL. The order in which the agents get the grant next (R33, U2, log 6). -/
  turns : List Agent
  /-- MODEL. The Device's next answers (R5, log 4). -/
  deviceIn : List Sample
  /-- MODEL. The Clock's next answers (R163, log 5). -/
  clockIn : List ClockTime
  /-- MODEL. How many free values have been drawn (log 4). -/
  draws : Nat
  /-- MODEL. N at the last write of Grid, the "N_at_last_render" of R36, I7 (log 13). -/
  renderN : Nat
  /-- MODEL. The pin events emitted so far, oldest first (R6, R62, log 13). -/
  trace : List PinEvent
  /-- MODEL. The responses given so far, oldest first (R6, R12, log 13). -/
  responses : List Response
  deriving DecidableEq, Repr

/-- The idle state of the lines (R14, R30). -/
def Pins.idle : Pins := { stb := true, clk := true, dio := true, dioDir := .output }

/-- Power-on (R37, R230): phase Off, no stop request, no owner. The other fields of R20 are unspecified
there; each holds the value START gives it (log 1). -/
def State.reset : State where
  mode := Config.modeReset
  brightness := Config.brightReset
  grid := Vector.replicate 7 0#8
  text := Config.textReset
  timeMode := Config.timeModeReset
  queue := []
  pins := Pins.idle
  phase := .off
  stopReq := false
  owner := .none
  cfg := Config.installed
  pending := []
  stopWait := []
  turns := []
  deviceIn := []
  clockIn := []
  draws := 0
  renderN := 0
  trace := []
  responses := []

end Sys2Proof.Machine
end

