-- ==== Sys2Proof/Machine/Flags.lean ====
section
/-!
DEFINITION. The flags: the block has no condition codes, only the two one-bit flags time_mode (R25) and
stop_req (R32) and the conditions that phase and flags make. This file has every such condition.
-/

namespace Sys2Proof.Machine

/-- A `b8` that stands for a Boolean: 0 is off or false, anything else on or true (R80, R179, R188). -/
def isOn (f : Byte) : Bool := f != 0x00#8

/-- The byte that GETTM returns (R178). -/
def flagByte (f : Bool) : Byte := if f then 1#8 else 0#8

/-- An engine exists: requests other than START and STOP are served (R175, R205). -/
def engineRuns : Phase → Bool
  | .off | .failed => false
  | .startup _ | .steady | .halted => true

/-- The loop has a step (R155): a frame, an iteration, or the halt step. -/
def loopActive : Phase → Bool
  | .startup _ | .steady => true
  | .off | .failed | .halted => false

/-- STOP's second operation is enabled (R189). -/
def stopReady : Phase → Bool
  | .halted | .off => true
  | .failed | .startup _ | .steady => false

end Sys2Proof.Machine
end

