-- ==== Sys2Proof/Machine/Operands.lean ====
section
/-!
DEFINITION. The operand forms and the pure functions over them: bits and bytes, grid count and
addresses, the character encoder and RENDER, the raw string, the key decoder, the brightness clamp,
the mode selector, and the loop's strings. Nothing here reads or writes a State.
-/

namespace Sys2Proof.Machine

/-! ## Bits and bytes (R54) -/

/-- The bits of a byte in the order of the wire: bit 0 first (R54). -/
def byteBits (b : Byte) : List Bool :=
  [b.getLsbD 0, b.getLsbD 1, b.getLsbD 2, b.getLsbD 3,
   b.getLsbD 4, b.getLsbD 5, b.getLsbD 6, b.getLsbD 7]

/-- The number whose bits are given, bit 0 first. -/
def natOfBits : List Bool → Nat
  | [] => 0
  | b :: bs => b.toNat + 2 * natOfBits bs

/-- The byte whose bits are given, bit 0 first: the `i`-th becomes bit `i` (R54, R102). -/
def byteOfBits (bs : List Bool) : Byte := BitVec.ofNat 8 (natOfBits bs)

/-- The bit a sample counts as: 1 only if the sample is 1; 0 and undef give 0 (R72, R102, R202). -/
def sampleBit : Sample → Bool
  | .one => true
  | .zero => false
  | .undef => false

/-! ## Modes (R88, R127) -/

/-- The entry of a per-mode parameter (R7). -/
def perMode {α : Type} (t : PerMode α) : Mode → α
  | .m4x13 => t.m4x13
  | .m5x12 => t.m5x12
  | .m6x11 => t.m6x11
  | .m7x10 => t.m7x10

/-- N_GRIDS(mode) (R127, D2). -/
def nGrids : Mode → Nat
  | .m4x13 => 4
  | .m5x12 => 5
  | .m6x11 => 6
  | .m7x10 => 7

/-- The mode a selector byte names; none for 4..255 (R88). -/
def modeOfSel (sel : Byte) : Option Mode :=
  match sel with
  | 0#8 => some .m4x13
  | 1#8 => some .m5x12
  | 2#8 => some .m6x11
  | 3#8 => some .m7x10
  | _ => none

/-- The selector byte of a mode (R88). -/
def selOfMode : Mode → Byte
  | .m4x13 => 0
  | .m5x12 => 1
  | .m6x11 => 2
  | .m7x10 => 3

/-! ## Brightness (R177) -/

/-- Clamping to 0..15 at both ends (R177, C2, D14). -/
def clampBright (v : Int) : Fin 16 :=
  if v < 0 then 0
  else if 15 < v then 15
  else Fin.ofNat 16 v.toNat

/-- CMD_BRIGHT(b) (R7, R74). -/
def brightCommand (cfg : Params) (b : Fin 16) : Byte := cfg.cmdBright[b]

/-! ## Addresses (R52, R75) -/

/-- `(BASE(mode) + offset) mod 256` (R52, R75, D15). -/
def deviceAddr (cfg : Params) (m : Mode) (offset : Nat) : Byte :=
  perMode cfg.base m + BitVec.ofNat 8 offset

/-- The address of grid `i`: offset `2*i` (R52). -/
def gridAddr (cfg : Params) (m : Mode) (i : Nat) : Byte := deviceAddr cfg m (2 * i)

/-- The address of raw byte `j`: offset `j` (R52). -/
def rawAddr (cfg : Params) (m : Mode) (j : Nat) : Byte := deviceAddr cfg m j

/-! ## The character encoder (R120) -/

/-- The code of '.' (R8). -/
def dotChr : Chr := 0x2E#8

/-- SEG_DIGIT[d] as a byte: bit 7 clear (R28, D4). -/
def digitSeg (cfg : Params) (d : Fin 10) : Byte := (cfg.segDigit[d]).setWidth 8

/-- SEG_LETTER of the `l`-th letter as a byte: bit 7 clear (R28, D4). -/
def letterSeg (cfg : Params) (l : Fin 26) : Byte := (cfg.segLetter[l]).setWidth 8

/-- CHAR2SEG (R120): digits and letters through the tables, letters in either case, anything else blank. -/
def charToSeg (cfg : Params) (c : Chr) : Byte :=
  if h : 0x30 ≤ c.toNat ∧ c.toNat ≤ 0x39 then digitSeg cfg ⟨c.toNat - 0x30, by omega⟩
  else if h : 0x41 ≤ c.toNat ∧ c.toNat ≤ 0x5A then letterSeg cfg ⟨c.toNat - 0x41, by omega⟩
  else if h : 0x61 ≤ c.toNat ∧ c.toNat ≤ 0x7A then letterSeg cfg ⟨c.toNat - 0x61, by omega⟩
  else 0x00#8

/-! ## RENDER (R121) -/

/-- The grid bytes that the rest of a string fills when `n` grids are left (the loop of R121): a dot with
no character before it is skipped, a dot after a character sets bit 7 of that character's byte. -/
def renderCells (cfg : Params) : Nat → Str → List Byte
  | 0, _ => []
  | _ + 1, [] => []
  | _ + 1, [c] => if c = dotChr then [] else [charToSeg cfg c]
  | n + 1, c :: d :: rest =>
    if c = dotChr then renderCells cfg (n + 1) (d :: rest)
    else if d = dotChr then (charToSeg cfg c ||| 0x80#8) :: renderCells cfg n rest
    else charToSeg cfg c :: renderCells cfg n (d :: rest)

/-- Seven grid bytes from the bytes filled so far: the rest are blank (R121). -/
def gridOf (cells : List Byte) : Vector Byte 7 := Vector.ofFn fun i => cells.getD i.val 0x00#8

/-- RENDER(text) under a mode (R121). -/
def renderGrid (cfg : Params) (m : Mode) (text : Str) : Vector Byte 7 :=
  gridOf (renderCells cfg (nGrids m) text)

/-- Seven blank grids (R128). -/
def blankGrid : Vector Byte 7 := Vector.replicate 7 0x00#8

/-- Grid[i]; 0 beyond the array, where no rule reads (R23). -/
def gridByte (g : Vector Byte 7) (i : Nat) : Byte := if h : i < 7 then g[i] else 0x00#8

/-! ## The raw-register string (R77, R125) -/

/-- The value of a hex character, either case; none for any other character (R77, R125). -/
def hexVal (c : Chr) : Option Nat :=
  let n := c.toNat
  if 0x30 ≤ n ∧ n ≤ 0x39 then some (n - 0x30)
  else if 0x41 ≤ n ∧ n ≤ 0x46 then some (n - 0x41 + 10)
  else if 0x61 ≤ n ∧ n ≤ 0x66 then some (n - 0x61 + 10)
  else none

/-- The bytes of pairs of hex characters, high nibble first; none if a character is not hex or one is
left over (R56). -/
def hexPairs : Str → Option (List Byte)
  | [] => some []
  | [_] => none
  | hi :: lo :: rest =>
    match hexVal hi, hexVal lo, hexPairs rest with
    | some h, some l, some bs => some (BitVec.ofNat 8 (h * 16 + l) :: bs)
    | _, _, _ => none

/-- HEXBYTES (R125): 14 bytes, or none for the verdict malformed. -/
def hexBytes (s : Str) : Option (List Byte) := if s.length = 28 then hexPairs s else none

/-! ## Keys (R141) -/

/-- Whether a scan asserts the bit of a KEYMAP entry (R53). -/
def keyAsserted (k : List Byte) (e : KeyEntry) : Bool :=
  (k.getD e.byteIdx.val 0x00#8).getLsbD e.bitIdx.val

/-- DECODEKEY (R141): the first entry in table order whose bit is set. -/
def decodeKey (keymap : List KeyEntry) (k : List Byte) : Option Chr :=
  (keymap.find? (keyAsserted k)).map fun e => e.key

/-- PUSHKEY's effect on the queue (R142): appended, or dropped when the queue is full. -/
def pushQueue (cfg : Params) (c : Chr) (q : List Chr) : List Chr :=
  if q.length < cfg.queueCap.val then q ++ [c] else q

/-! ## The loop's strings (R86, R87) -/

/-- The character of a decimal digit (R86, R156). -/
def digitChr (d : Nat) : Chr := BitVec.ofNat 8 (0x30 + d)

/-- The two decimal digits of a number below 100 (R86, R159). -/
def twoDigits (x : Nat) : Str := [digitChr (x / 10), digitChr (x % 10)]

/-- "HH.MM.SS" (R86). -/
def timeString (t : ClockTime) : Str :=
  twoDigits t.hh.val ++ [dotChr] ++ twoDigits t.mm.val ++ [dotChr] ++ twoDigits t.ss.val

/-- The 12-character string of startup frame `k` <= 9: digit and dot, six times (R87, R156). -/
def frameString (k : Nat) : Str := (List.replicate 6 [digitChr k, dotChr]).flatten

end Sys2Proof.Machine
end

