-- ==== Sys2Proof/Machine/Ops.lean ====
section
/-!
DEFINITION. The named operations over the state: emitting pin events, the oracles, the framing engine
and its transactions, the display and key procedures the instructions share, responding, delivering a
failure (the one operation that stands in place of taking an exception, R210), and the grant.
-/

namespace Sys2Proof.Machine

/-! ## Emitting pin events (R9, R10, R30) -/

/-- What one pin event does to the pin registers (R10). -/
def pinsApply (p : Pins) : PinEvent → Pins
  | .level .stb v => { p with stb := v }
  | .level .clk v => { p with clk := v }
  | .level .dio v => { p with dio := v }
  | .dir d => { p with dioDir := d }
  | .sample _ => p
  | .settle => p
  | .pause _ => p

/-- The pin registers after a list of events. -/
def pinsAfter (p : Pins) (es : List PinEvent) : Pins := es.foldl pinsApply p

/-- Emit events in order: append them to the trace and update the pin registers (R9). -/
def emit (es : List PinEvent) (s : State) : State :=
  { s with pins := pinsAfter s.pins es, trace := s.trace ++ es }

/-! ## The oracles (R5, R163) -/

/-- `sample()`: the Device's next answer, a free value where none is given (R9, R102, log 4). -/
def takeSample (s : State) : Sample × State :=
  match s.deviceIn with
  | x :: xs => (x, { s with deviceIn := xs })
  | [] => (Config.deviceSample s.draws, { s with draws := s.draws + 1 })

/-- `n` samples in order. -/
def takeSamples : Nat → State → List Sample × State
  | 0, s => ([], s)
  | n + 1, s =>
    let (x, s1) := takeSample s
    let (xs, s2) := takeSamples n s1
    (x :: xs, s2)

/-- `Clock()`: the Clock's next answer, a free value where none is given (R163, log 5). -/
def takeClock (s : State) : ClockTime × State :=
  match s.clockIn with
  | t :: ts => (t, { s with clockIn := ts })
  | [] => (Config.clockReading s.draws, { s with draws := s.draws + 1 })

/-! ## Bit cells and transactions (R71, R72, R73) -/

/-- The write bit cell (R71). -/
def writeCell (v : Bool) : List PinEvent :=
  [.level .clk false, .settle, .level .dio v, .settle, .level .clk true, .settle]

/-- The read bit cell (R72). -/
def readCell (x : Sample) : List PinEvent :=
  [.level .clk false, .settle, .level .clk true, .settle, .sample x]

/-- `B(b)`: eight write cells, bit 0 first (R54, R73). -/
def byteEvents (b : Byte) : List PinEvent := (byteBits b).flatMap writeCell

/-- Read cells, one for each sample (R73). -/
def readEvents (xs : List Sample) : List PinEvent := xs.flatMap readCell

/-- The CMD transaction (R73, R101). -/
def cmdEvents (c : Byte) : List PinEvent :=
  [.level .stb false, .settle] ++ byteEvents c ++ [.settle, .level .stb true, .settle]

/-- The WR transaction (R73, R122). -/
def wrEvents (a d : Byte) : List PinEvent :=
  [.level .stb false, .settle] ++ byteEvents a ++ byteEvents d
    ++ [.settle, .level .stb true, .settle]

/-- The RD transaction up to its first read cell (R73, R140). -/
def rdOpenEvents (c : Byte) : List PinEvent :=
  [.level .stb false, .settle] ++ byteEvents c ++ [.dir .input, .settle]

/-- The RD transaction after its last read cell (R73, R140, D11, D32). -/
def rdCloseEvents : List PinEvent :=
  [.level .stb true, .settle, .dir .output, .level .dio true]

/-- The three commands of the initialization sequence (R126). -/
def initEvents (cfg : Params) (m : Mode) (b : Fin 16) : List PinEvent :=
  cmdEvents (perMode cfg.cmdMode m) ++ cmdEvents cfg.cmdDataAutoinc
    ++ cmdEvents (brightCommand cfg b)

/-- The WR transactions of the first N grids, in index order (R123). -/
def gridEvents (cfg : Params) (m : Mode) (g : Vector Byte 7) : List PinEvent :=
  (List.range (nGrids m)).flatMap fun i => wrEvents (gridAddr cfg m i) (gridByte g i)

/-- The WR transactions of 14 raw bytes (R124). A byte the list does not have is 0 (log 16). -/
def rawEvents (cfg : Params) (m : Mode) (b : List Byte) : List PinEvent :=
  (List.range 14).flatMap fun j => wrEvents (rawAddr cfg m j) (b.getD j 0x00#8)

/-- The lines to idle, as START and STOP drive them (R188, R189, D17). -/
def idleEvents : List PinEvent :=
  [.level .stb true, .level .clk true, .dir .output, .level .dio true]

/-! ## Procedures over the state -/

/-- SENDBYTE (R100). -/
def sendByte (b : Byte) (s : State) : State := emit (byteEvents b) s

/-- SENDCMD (R101). -/
def sendCmd (c : Byte) (s : State) : State := emit (cmdEvents c) s

/-- READBYTE (R102): eight samples, and the byte they make. -/
def readByte (s : State) : Byte × State :=
  let (xs, s1) := takeSamples 8 s
  (byteOfBits (xs.map sampleBit), emit (readEvents xs) s1)

/-- READBYTE `n` times. -/
def readBytes : Nat → State → List Byte × State
  | 0, s => ([], s)
  | n + 1, s =>
    let (b, s1) := readByte s
    let (bs, s2) := readBytes n s1
    (b :: bs, s2)

/-- WRREG (R122). -/
def wrReg (a d : Byte) (s : State) : State := emit (wrEvents a d) s

/-- WRGRID (R123). -/
def wrGrid (s : State) : State := emit (gridEvents s.cfg s.mode s.grid) s

/-- WRRAWB (R124): `grid` and `text` keep their values (C8, D13). -/
def wrRawB (b : List Byte) (s : State) : State := emit (rawEvents s.cfg s.mode b) s

/-- INITSEQ (R126). -/
def initSeq (s : State) : State := emit (initEvents s.cfg s.mode s.brightness) s

/-- Writing the whole of Grid under the mode in force (R23); `renderN` remembers N (R36, I7). -/
def setGrid (g : Vector Byte 7) (s : State) : State :=
  { s with grid := g, renderN := nGrids s.mode }

/-- RENDER a text, write Grid, WRGRID: what SETTXT, SETTM off, the frames and the time iteration share
(R85, R156, R159, R179, R181). -/
def showText (t : Str) (s : State) : State := wrGrid (setGrid (renderGrid s.cfg s.mode t) s)

/-- CLEARDISP (R128). -/
def clearDisp (s : State) : State := wrGrid (setGrid blankGrid s)

/-- SCANKEYS (R140): the five bytes read, the lines restored. -/
def scanKeys (s : State) : List Byte × State :=
  let (k, s1) := readBytes 5 (emit (rdOpenEvents s.cfg.cmdReadKeys) s)
  (k, emit rdCloseEvents s1)

/-- PUSHKEY (R142). -/
def pushKey (c : Chr) (s : State) : State := { s with queue := pushQueue s.cfg c s.queue }

/-! ## Responses and failures (R12, R175, R210) -/

/-- Respond to the holder of the grant (R12, R175). -/
def respond (st : Status) (v : Value) (s : State) : State :=
  { s with responses := s.responses ++ [{ dest := s.owner, status := st, value := v }] }

/-- `respond (OK, value)` (R175). -/
def respondOk (v : Value) (s : State) : State := respond .ok v s

/-- Delivering a failure, the one shared operation that stands in place of taking an exception (R210): no
field of R20 is written, no pin event is emitted, the response carries the status and no value. There
is no return from it (R211). -/
def fail (st : Status) (s : State) : State := respond st .none s

/-- The envelope of R175 after the form check: every request but START and STOP fails with ENotRunning
where no engine runs, and is performed otherwise (R205, R209). -/
def serve (body : State → State) (s : State) : Host.Outcome State Fault Refusal :=
  .next (if engineRuns s.phase then body s else fail .eNotRunning s)

/-! ## The grant (R33) -/

/-- Take the grant. -/
def takeGrant (o : Owner) (s : State) : State := { s with owner := o }

/-- Release the grant. -/
def release (s : State) : State := { s with owner := .none }

/-- The agent that gets the next turn: the next of `turns`, a free choice where none is given (U2, log 6). -/
def nextTurn (s : State) : Agent × State :=
  match s.turns with
  | a :: ts => (a, { s with turns := ts })
  | [] => (Config.nextAgent s.draws, { s with draws := s.draws + 1 })

/-- The oldest request of caller `i` and the others in order: the requests of one caller are served in the
order it issued them (R62 d). -/
def takeRequest (i : Nat) : List Request → Option (Request × List Request)
  | [] => none
  | r :: rs =>
    if r.caller = i then some (r, rs)
    else (takeRequest i rs).map fun p => (p.1, r :: p.2)

end Sys2Proof.Machine
end

