-- ==== Sys2Proof/Machine/Control.lean ====
section
/-!
DEFINITION. The control surface (44_control_surface.md, sections 2 to 7).
-/

namespace Sys2Proof.Machine

/-- GETBRT (R176). -/
def execGetbrt (s : State) : Host.Outcome State Fault Refusal :=
  serve (fun s => respondOk (.b8 (BitVec.ofNat 8 s.brightness.val)) s) s

/-- SETBRT `v` (R177): clamp, store, re-issue the initialization sequence. -/
def execSetbrt (v : Int) (s : State) : Host.Outcome State Fault Refusal :=
  serve (fun s => respondOk .none (initSeq { s with brightness := clampBright v })) s

/-- GETTM (R178). -/
def execGettm (s : State) : Host.Outcome State Fault Refusal :=
  serve (fun s => respondOk (.b8 (flagByte s.timeMode)) s) s

/-- What SETTM does (R179): the flag is set; switching it off re-renders the stored text at once. -/
def setTimeMode (f : Bool) (s : State) : State :=
  let s1 := { s with timeMode := f }
  if f then s1 else showText s1.text s1

/-- SETTM `f` (R179). -/
def execSettm (f : Byte) (s : State) : Host.Outcome State Fault Refusal :=
  serve (fun s => respondOk .none (setTimeMode (isOn f) s)) s

/-- GETTXT (R180). -/
def execGettxt (s : State) : Host.Outcome State Fault Refusal :=
  serve (fun s => respondOk (.str s.text) s) s

/-- SETTXT `t` (R181): store, render, write. -/
def execSettxt (t : Str) (s : State) : Host.Outcome State Fault Refusal :=
  serve (fun s => respondOk .none (showText t { s with text := t })) s

/-- GETMODE (R182): the selector byte of R88. -/
def execGetmode (s : State) : Host.Outcome State Fault Refusal :=
  serve (fun s => respondOk (.b8 (selOfMode s.mode)) s) s

/-- SETMODE `sel` (R183): an invalid selector fails with EMalformed and writes nothing. -/
def execSetmode (sel : Byte) (s : State) : Host.Outcome State Fault Refusal :=
  serve (fun s =>
    match modeOfSel sel with
    | none => fail .eMalformed s
    | some m => respondOk .none (initSeq { s with mode := m })) s

/-- POPKEY (R184): an empty queue is no failure; the value is none. -/
def execPopkey (s : State) : Host.Outcome State Fault Refusal :=
  serve (fun s => respondOk (.opt8 s.queue.head?) { s with queue := s.queue.tail }) s

/-- CLRKEYS (R185): the queue and the display; `text` is kept (D23). -/
def execClrkeys (s : State) : Host.Outcome State Fault Refusal :=
  serve (fun s => respondOk .none (clearDisp { s with queue := [] })) s

/-- SHOWKEYS (R186): the queue as a string, oldest first. -/
def execShowkeys (s : State) : Host.Outcome State Fault Refusal :=
  serve (fun s => respondOk (.str s.queue) s) s

/-- WRRAW `t` (R187): the whole string is checked before anything is written. -/
def execWrraw (t : Str) (s : State) : Host.Outcome State Fault Refusal :=
  serve (fun s =>
    match hexBytes t with
    | none => fail .eMalformed s
    | some b => respondOk .none (wrRawB b s)) s

end Sys2Proof.Machine
end

