-- ==== Sys2Proof/Machine/Display.lean ====
section
/-!
DEFINITION. The requests of the display encoder (41_display_encoding.md), served through the envelope
(R175, R190).
-/

namespace Sys2Proof.Machine

/-- CHAR2SEG `c` (R120). -/
def execChar2seg (c : Chr) (s : State) : Host.Outcome State Fault Refusal :=
  serve (fun s => respondOk (.b8 (charToSeg s.cfg c)) s) s

/-- RENDER `text` as a request returns its 7 bytes and does not write Grid (R121, R190). -/
def execRender (text : Str) (s : State) : Host.Outcome State Fault Refusal :=
  serve (fun s => respondOk (.bytes (renderGrid s.cfg s.mode text).toList) s) s

/-- WRREG `a`, `d` (R122). -/
def execWrreg (a d : Byte) (s : State) : Host.Outcome State Fault Refusal :=
  serve (fun s => respondOk .none (wrReg a d s)) s

/-- WRGRID (R123). -/
def execWrgrid (s : State) : Host.Outcome State Fault Refusal :=
  serve (fun s => respondOk .none (wrGrid s)) s

/-- WRRAWB `b[0..13]` (R124). -/
def execWrrawb (b : List Byte) (s : State) : Host.Outcome State Fault Refusal :=
  serve (fun s => respondOk .none (wrRawB b s)) s

/-- INITSEQ (R126). -/
def execInitseq (s : State) : Host.Outcome State Fault Refusal :=
  serve (fun s => respondOk .none (initSeq s)) s

end Sys2Proof.Machine
end

