-- ==== Sys2Proof/Machine/Framing.lean ====
section
/-!
DEFINITION. The requests of the serial framing engine (40_serial_framing.md), served through the envelope
(R175, R190).
-/

namespace Sys2Proof.Machine

/-- SENDBYTE `b` (R100). -/
def execSendbyte (b : Byte) (s : State) : Host.Outcome State Fault Refusal :=
  serve (fun s => respondOk .none (sendByte b s)) s

/-- SENDCMD `c` (R101). -/
def execSendcmd (c : Byte) (s : State) : Host.Outcome State Fault Refusal :=
  serve (fun s => respondOk .none (sendCmd c s)) s

/-- READBYTE (R102): the response carries the byte. -/
def execReadbyte (s : State) : Host.Outcome State Fault Refusal :=
  serve (fun s => respondOk (.b8 (readByte s).1) (readByte s).2) s

end Sys2Proof.Machine
end

