-- ==== Sys2Proof/Machine/Keys.lean ====
section
/-!
DEFINITION. The requests of the key-matrix scanner (42_key_matrix.md), served through the envelope
(R175, R190).
-/

namespace Sys2Proof.Machine

/-- SCANKEYS as a request returns its 5 bytes and queues nothing (R140, R190). -/
def execScankeys (s : State) : Host.Outcome State Fault Refusal :=
  serve (fun s => respondOk (.bytes (scanKeys s).1) (scanKeys s).2) s

/-- DECODEKEY `k[0..4]` as a request returns its verdict and queues nothing (R141, R190). -/
def execDecodekey (k : List Byte) (s : State) : Host.Outcome State Fault Refusal :=
  serve (fun s => respondOk (.opt8 (decodeKey s.cfg.keymap k)) s) s

/-- PUSHKEY `c` (R142): a full queue drops the key and the response is OK all the same (R204). -/
def execPushkey (c : Chr) (s : State) : Host.Outcome State Fault Refusal :=
  serve (fun s => respondOk .none (pushKey c s)) s

end Sys2Proof.Machine
end

