-- ==== Sys2Proof/Machine/Lifecycle.lean ====
section
/-!
DEFINITION. Engine start and shutdown (44_control_surface.md, section 8): START, and the two operations
of STOP.
-/

namespace Sys2Proof.Machine

/-- The defaults of START's step 2 (R188, R231). -/
def engineDefaults (s : State) : State :=
  { s with
    mode := Config.modeReset
    brightness := Config.brightReset
    grid := blankGrid
    text := Config.textReset
    timeMode := Config.timeModeReset
    queue := []
    stopReq := false
    renderN := 0 }

/-- START's steps 1 and 2 (R188, R231): idle lines, then defaults. The record then holds what R20 and R37
call its values after START ("step 2 of rule R188, before INITSEQ"), DATA at 1 among them (R242, log 19). -/
def startReset (s : State) : State := engineDefaults (emit idleEvents s)

/-- START with the lines obtained (R188): the reset record, INITSEQ, phase Startup(0). INITSEQ ends with a
SENDCMD, so DATA then keeps bit 7 of that byte, as R242 says of a SENDCMD (log 19). -/
def startEngine (s : State) : State :=
  { initSeq (startReset s) with phase := .startup 0 }

/-- START `lines_ok` (R188, R203, R206): EAlreadyRunning in any phase but Off, then EFatalLines. -/
def execStart (linesOk : Byte) (s : State) : Host.Outcome State Fault Refusal :=
  .next (
    if s.phase ≠ .off then fail .eAlreadyRunning s
    else if isOn linesOk then respondOk .none (startEngine s)
    else fail .eFatalLines { s with phase := .failed })

/-- STOP, first operation (R189): in Off there is no engine; in Failed the lines were never owned and the
block goes Off at once; otherwise the stop request is set and the caller waits (log 12). -/
def execStop (s : State) : Host.Outcome State Fault Refusal :=
  .next (
    match s.phase with
    | .off => fail .eNotRunning s
    | .failed => respondOk .none { s with phase := .off }
    | .startup _ | .steady | .halted =>
      { s with stopReq := true, stopWait := s.stopWait ++ [s.owner] })

/-- STOP, second operation (R189), when the phase is Halted or Off: another STOP may have finished first. -/
def stopSecond (s : State) : State :=
  if s.phase = .off then fail .eNotRunning s
  else respondOk .none { emit idleEvents s with phase := .off, stopReq := false }

end Sys2Proof.Machine
end

