-- ==== Sys2Proof/Machine/WireBytes.lean ====
section
/-!
DEFINITION. The five WIRE rows of the opcode table (R74, R75): "The block sends each of these bytes as a
plain number through SENDBYTE"; the value sent is the parameter, not the default pattern. That a row
driven alone goes through the envelope of R175 and is answered is a DESIGN CHOICE (log 10): R190 lists the
twelve primitive requests only.
-/

namespace Sys2Proof.Machine

/-- CMD_MODE(m) (R74). -/
def execCmdMode (m : Mode) (s : State) : Host.Outcome State Fault Refusal :=
  serve (fun s => respondOk .none (sendByte (perMode s.cfg.cmdMode m) s)) s

/-- CMD_DATA_AUTOINC (R74). -/
def execCmdDataAutoinc (s : State) : Host.Outcome State Fault Refusal :=
  serve (fun s => respondOk .none (sendByte s.cfg.cmdDataAutoinc s)) s

/-- CMD_READ_KEYS (R74). -/
def execCmdReadKeys (s : State) : Host.Outcome State Fault Refusal :=
  serve (fun s => respondOk .none (sendByte s.cfg.cmdReadKeys s)) s

/-- The address byte of offset `off` under the mode in force (R75). -/
def execAddr (off : BitVec 4) (s : State) : Host.Outcome State Fault Refusal :=
  serve (fun s => respondOk .none (sendByte (deviceAddr s.cfg s.mode off.toNat) s)) s

/-- CMD_BRIGHT(b) (R74). -/
def execCmdBright (b : BitVec 4) (s : State) : Host.Outcome State Fault Refusal :=
  serve (fun s => respondOk .none (sendByte (brightCommand s.cfg b.toFin) s)) s

end Sys2Proof.Machine
end

