-- ==== Sys2Proof/Machine/Dispatch.lean ====
section
/-!
DEFINITION. The meaning of every instruction: one arm for each row of the opcode table.
-/

namespace Sys2Proof.Machine

def exec (i : Instr) (s : State) : Host.Outcome State Fault Refusal :=
  match i with
  | .sendbyte b => Sys2Proof.Machine.execSendbyte b s
  | .sendcmd c => Sys2Proof.Machine.execSendcmd c s
  | .readbyte => Sys2Proof.Machine.execReadbyte s
  | .char2seg c => Sys2Proof.Machine.execChar2seg c s
  | .render text => Sys2Proof.Machine.execRender text s
  | .wrreg a d => Sys2Proof.Machine.execWrreg a d s
  | .wrgrid => Sys2Proof.Machine.execWrgrid s
  | .wrrawb b => Sys2Proof.Machine.execWrrawb b s
  | .initseq => Sys2Proof.Machine.execInitseq s
  | .scankeys => Sys2Proof.Machine.execScankeys s
  | .decodekey k => Sys2Proof.Machine.execDecodekey k s
  | .pushkey c => Sys2Proof.Machine.execPushkey c s
  | .getbrt => Sys2Proof.Machine.execGetbrt s
  | .setbrt v => Sys2Proof.Machine.execSetbrt v s
  | .gettm => Sys2Proof.Machine.execGettm s
  | .settm f => Sys2Proof.Machine.execSettm f s
  | .gettxt => Sys2Proof.Machine.execGettxt s
  | .settxt t => Sys2Proof.Machine.execSettxt t s
  | .getmode => Sys2Proof.Machine.execGetmode s
  | .setmode sel => Sys2Proof.Machine.execSetmode sel s
  | .popkey => Sys2Proof.Machine.execPopkey s
  | .clrkeys => Sys2Proof.Machine.execClrkeys s
  | .showkeys => Sys2Proof.Machine.execShowkeys s
  | .wrraw t => Sys2Proof.Machine.execWrraw t s
  | .start linesOk => Sys2Proof.Machine.execStart linesOk s
  | .stop => Sys2Proof.Machine.execStop s
  | .cmdMode m => Sys2Proof.Machine.execCmdMode m s
  | .cmdDataAutoinc => Sys2Proof.Machine.execCmdDataAutoinc s
  | .cmdReadKeys => Sys2Proof.Machine.execCmdReadKeys s
  | .addr off => Sys2Proof.Machine.execAddr off s
  | .cmdBright b => Sys2Proof.Machine.execCmdBright b s

end Sys2Proof.Machine
end

