-- ==== Sys2Proof/Machine/Loop.lean ====
section
/-!
DEFINITION. The polling loop (43_polling_loop.md): the steps that happen by themselves. Each takes the
grant, does all of its work and releases it; a pacing pause is emitted after the release (R33, R155).
-/

namespace Sys2Proof.Machine

/-- A loop step under the grant (R155). -/
def loopOperation (f : State → State) (s : State) : State := release (f (takeGrant .loop s))

/-- A pacing pause (R161). -/
def pacing (p : Pause) (s : State) : State := emit [.pause p] s

/-- Frame step `k` (R156, R157): a digit frame, the banner, or the clear that enters the steady loop. -/
def frameStep (k : Fin 12) (s : State) : State :=
  if k.val ≤ 9 then
    pacing .startupHold
      (loopOperation (fun s => { showText (frameString k.val) s with phase := .startup (k + 1) }) s)
  else if k.val = 10 then
    pacing .bannerHold
      (loopOperation (fun s => { showText s.cfg.banner s with phase := .startup 11 }) s)
  else
    loopOperation (fun s => { clearDisp s with phase := .steady }) s

/-- Time iteration (R159): the time goes to the display and never to `text` (D35). -/
def timeIter (s : State) : State :=
  pacing .timePause
    (loopOperation (fun s => showText (timeString (takeClock s).1) (takeClock s).2) s)

/-- What a scan iteration does with the key it decodes, if any (R160). -/
def queueKey (key : Option Chr) (s : State) : State :=
  match key with
  | none => s
  | some c => pushKey c s

/-- Scan iteration (R160): one scan, at most one key (R143). -/
def scanIter (s : State) : State :=
  pacing .scanPause
    (loopOperation (fun s => queueKey (decodeKey s.cfg.keymap (scanKeys s).1) (scanKeys s).2) s)

/-- Halt step (R162): no pin event. -/
def haltStep (s : State) : State := { s with phase := .halted }

/-- The loop's one enabled step (R155, R158); in Off, Failed and Halted it has none. -/
def loopStep (s : State) : State :=
  match s.phase with
  | .startup k => if s.stopReq then haltStep s else frameStep k s
  | .steady =>
    if s.stopReq then haltStep s
    else if s.timeMode then timeIter s
    else scanIter s
  | .off | .failed | .halted => s

end Sys2Proof.Machine
end

