-- ==== Sys2Proof/Machine/Serve.lean ====
section
/-!
DEFINITION. One turn of an agent: the loop's step, or the service of a caller's request (R155, R175,
R189), and the issue of a request from outside.
-/

namespace Sys2Proof.Machine

/-- The end of an operation: the grant is released (R175). -/
def finishServe : Host.Outcome State Fault Refusal → Host.Outcome State Fault Refusal
  | .next s => .next (release s)
  | .fault r => .fault r
  | .refused r => .refused r

/-- Serving a request whose caller holds the grant (R175): bytes that are no instruction fail with
EMalformed (R83, R201), any other request is performed. -/
def serveRequest (r : Request) (s : State) : Host.Outcome State Fault Refusal :=
  match decode r.channel r.bytes with
  | .error _ => finishServe (.next (fail .eMalformed s))
  | .ok i => finishServe (exec i s)

/-- The second operation of caller `i`'s STOP, if it is enabled (R189). -/
def resumeStop (i : Nat) (s : State) : State :=
  if stopReady s.phase then
    release (stopSecond (takeGrant (.caller i)
      { s with stopWait := s.stopWait.erase (.caller i) }))
  else s

/-- The turn of caller `i`: its waiting STOP first, otherwise its oldest request; nothing if it has
none (R62 d, R175). -/
def callerTurn (i : Nat) (s : State) : Host.Outcome State Fault Refusal :=
  if Owner.caller i ∈ s.stopWait then .next (resumeStop i s)
  else
    match takeRequest i s.pending with
    | none => .next s
    | some (r, rest) => serveRequest r (takeGrant (.caller i) { s with pending := rest })

/-- One turn of an agent. -/
def agentTurn (a : Agent) (s : State) : Host.Outcome State Fault Refusal :=
  match a with
  | .loop => .next (loopStep s)
  | .caller i => callerTurn i s

/-- A caller that waits for nothing: its number is above that of every caller with a STOP under way. -/
def freshCaller (s : State) : Nat :=
  s.stopWait.foldl (fun n o => match o with | .caller i => max n (i + 1) | _ => n) 0

/-- Issue a request from outside and give its caller the next turn (log 8). -/
def issueNext (ch : Channel) (bs : List Byte) (s : State) : State :=
  { s with
    owner := .none
    pending := { caller := freshCaller s, channel := ch, bytes := bs } :: s.pending
    turns := .caller (freshCaller s) :: s.turns }

end Sys2Proof.Machine
end

