-- ==== Sys2Proof/Machine/Step.lean ====
section
/-!
DEFINITION. One step of the machine: one whole operation of the agent whose turn it is (R33, log 7), and
the placing of an instruction where the next step takes it.
-/

namespace Sys2Proof.Machine

/-- One step. An operation begins only when nobody holds the grant (R33); otherwise everybody waits. -/
def step (s : State) : Host.Outcome State Fault Refusal :=
  if s.owner = .none then agentTurn (nextTurn s).1 (nextTurn s).2
  else .next s

/-- `s` with the instruction whose bits are `w` (every bit above the table's `nbits` is 0) issued as a
request, its caller next in turn, so that the next step serves exactly it (log 8). -/
def State.withFetchWord (s : State) (nbits w : Nat) : State :=
  issueNext (layoutWord nbits w).1 (layoutWord nbits w).2 s

end Sys2Proof.Machine
end

