-- ==== Sys2Proof/Machine/PortBytes.lean ====
section
/-!
DEFINITION. Responses as bytes (R81, R82).
-/

namespace Sys2Proof.Machine

/-- The status byte (R82). -/
def statusByte : Status → Byte
  | .ok => 0x00
  | .eMalformed => 0x01
  | .eNotRunning => 0x02
  | .eFatalLines => 0x03
  | .eAlreadyRunning => 0x04

/-- The bytes of a value (R81). A string of 65536 characters or more has none: its length does not fit
the two length bytes (log 14). -/
def valueBytes : Value → Option (List Byte)
  | .none => some []
  | .b8 b => some [b]
  | .bytes bs => some bs
  | .opt8 none => some [0x00#8]
  | .opt8 (some c) => some [0x01#8, c]
  | .str s => if strFits s then some (strBytes s) else none

/-- The bytes of a response: the status byte, then the value (R82). -/
def responseBytes (r : Response) : Option (List Byte) :=
  (valueBytes r.value).map fun bs => statusByte r.status :: bs

end Sys2Proof.Machine
end

