-- ==== Sys2Proof/Machine/Memory.lean ====
section
/-!
DEFINITION. The display-register image: (address, byte) pairs in one canonical form, addresses strictly
rising. An address that is not listed is one no data-write transaction has reached; it has no value
(R51, log 15), so no listed entry equals what an unlisted address reads as.
-/

namespace Sys2Proof.Machine

/-- Bytes by address. -/
abbrev Memory := List Host.Cell

/-- The canonical form: addresses strictly rising. -/
def Memory.wf : Memory → Bool
  | [] => true
  | [_] => true
  | c :: d :: m => decide (c.1 < d.1) && Memory.wf (d :: m)

/-- The byte at an address; none where nothing was written. -/
def Memory.read : Memory → Nat → Option Byte
  | [], _ => none
  | (x, b) :: m, a => if a = x then some b else Memory.read m a

/-- Write one byte, keeping the canonical form. -/
def Memory.write : Memory → Nat → Byte → Memory
  | [], a, b => [(a, b)]
  | (x, c) :: m, a, b =>
    if a < x then (a, b) :: (x, c) :: m
    else if a = x then (a, b) :: m
    else (x, c) :: Memory.write m a b

end Sys2Proof.Machine
end

