-- ==== Sys2Proof/Machine/WireView.lean ====
section
/-!
DEFINITION. The byte-level view of a trace of pin events (R11), and the device image as a function of
it (R51). Both are observations: no rule reads them, no State field holds them (log 15).
-/

namespace Sys2Proof.Machine

/-- A strobe-bracketed transaction: the bytes written in it and the bytes read in it, in order. `<c>` is
one byte written, `<a d>` two, `<c | r0 .. r4>` one written and five read (R11). -/
structure Transaction where
  written : List Byte
  read : List Byte
  deriving DecidableEq, Repr

/-- The bits of an open strobe window: one for each rising edge so far, and whether a sample followed. -/
structure Window where
  writtenBits : List Bool
  readBits : List Bool
  deriving DecidableEq, Repr

/-- How far a trace has been read: the level of DATA, the open strobe window, the transactions ended. -/
structure WireView where
  dio : Bool
  window : Option Window
  done : List Transaction
  deriving DecidableEq, Repr

/-- Bytes from bits, eight at a time, bit 0 first; a rest of fewer than eight is no byte. -/
def bytesOfBits : List Bool → List Byte
  | b0 :: b1 :: b2 :: b3 :: b4 :: b5 :: b6 :: b7 :: rest =>
    byteOfBits [b0, b1, b2, b3, b4, b5, b6, b7] :: bytesOfBits rest
  | _ => []

/-- The transaction of a strobe window at its end. -/
def closeWindow (w : Window) : Transaction :=
  { written := bytesOfBits w.writtenBits, read := bytesOfBits w.readBits }

/-- One pin event read (R11): a transaction starts at `L(STB,0)` and ends at the next `L(STB,1)`; at a
rising edge of CLOCK the bit is the level of DATA, and if a sample follows, the bit is the sample. -/
def viewEvent (v : WireView) : PinEvent → WireView
  | .level .stb false =>
    match v.window with
    | none => { v with window := some { writtenBits := [], readBits := [] } }
    | some _ => v
  | .level .stb true =>
    match v.window with
    | none => v
    | some w => { v with window := none, done := v.done ++ [closeWindow w] }
  | .level .dio x => { v with dio := x }
  | .level .clk true =>
    match v.window with
    | none => v
    | some w => { v with window := some { w with writtenBits := w.writtenBits ++ [v.dio] } }
  | .level .clk false => v
  | .sample x =>
    match v.window with
    | none => v
    | some w => { v with window := some ⟨w.writtenBits.dropLast, w.readBits ++ [sampleBit x]⟩ }
  | .dir _ => v
  | .settle => v
  | .pause _ => v

/-- Nothing read yet: DATA idle, no window open (R14). -/
def viewStart : WireView := { dio := true, window := none, done := [] }

/-- The view of a trace (R11). -/
def viewOf (es : List PinEvent) : WireView := es.foldl viewEvent viewStart

/-- The transactions of a trace. -/
def transactionsOf (es : List PinEvent) : List Transaction := (viewOf es).done

/-- No transaction is cut: every strobe window of the trace is closed. -/
def wholeTrace (es : List PinEvent) : Bool := (viewOf es).window.isNone

/-- What a transaction does to the device image: a data write stores its byte at its address (R51). -/
def imageAfter (m : Memory) (t : Transaction) : Memory :=
  match t.written, t.read with
  | [a, d], [] => Memory.write m a.toNat d
  | _, _ => m

/-- The device image of a trace: at each address whatever the last data write to it carried (R51). -/
def deviceImage (es : List PinEvent) : Memory := (transactionsOf es).foldl imageAfter []

end Sys2Proof.Machine
end

