-- ==== Sys2Proof/Safety.lean ====
section
/-!
DEFINITION. What a safe run is, and the terms the claims use: the invariants of R36, whole transactions
on the wire (R59, R62), the pins as a mirror of the trace (R30), the oracles as streams, the logical
characters of a string (R121), and the phase table of R31.
-/

namespace Sys2Proof.Safety

open Sys2Proof.Machine

/-! ## Invariants -/

/-- CLOCK and STROBE rest high and DATA is an output: I4, I5, I6 of R36. -/
def LinesAtRest (p : Pins) : Prop := p.stb = true ∧ p.clk = true ∧ p.dioDir = .output

/-- R36 in a running engine: I3 the queue is within its capacity, I4 to I6 the lines are at rest, I7 the
grids from `N_at_last_render` on are blank. I1 and I2 hold by the types of `brightness` and `mode`. -/
def EngineInv (s : State) : Prop :=
  s.queue.length ≤ s.cfg.queueCap.val ∧ LinesAtRest s.pins ∧
    ∀ i : Fin 7, s.renderN ≤ i.val → s.grid[i] = 0x00#8

/-- The invariant of the machine between operations: nobody holds the grant, R36 holds where an engine
runs, a stop request stands only in a running engine and some STOP waits for it (R32, R189), and the
loop has halted only because of one (R31, R162). -/
def StateInv (s : State) : Prop :=
  s.owner = .none ∧
  (engineRuns s.phase = true → EngineInv s) ∧
  (s.stopReq = true → engineRuns s.phase = true ∧ s.stopWait ≠ []) ∧
  (s.phase = .halted → s.stopReq = true)

/-- No transaction of the trace is cut (R59, R62 e). -/
def TraceWhole (s : State) : Prop := wholeTrace s.trace = true

/-- The pin registers are what the trace's events make of `p0` (R30). -/
def PinsMirror (p0 : Pins) (s : State) : Prop := s.pins = pinsAfter p0 s.trace

/-- A safe outcome: the machine goes on, and the invariant holds. -/
def SafeOutcome : Host.Outcome State Fault Refusal → Prop
  | .next s => StateInv s ∧ TraceWhole s
  | .fault _ => False
  | .refused _ => False

/-- The transitions of S.phase: the rows of R31's table, and staying. -/
def PhaseMove : Phase → Phase → Prop
  | .off, p => p = .off ∨ p = .startup 0 ∨ p = .failed
  | .failed, p => p = .failed ∨ p = .off
  | .startup k, p =>
    p = .startup k ∨ p = .halted ∨ (∃ j : Fin 12, j.val = k.val + 1 ∧ p = .startup j) ∨
      (k.val = 11 ∧ p = .steady)
  | .steady, p => p = .steady ∨ p = .halted
  | .halted, p => p = .halted ∨ p = .off

/-! ## The oracles as streams -/

/-- The Device's `n`-th next answer (R5, D33). -/
def deviceStream (s : State) (n : Nat) : Sample :=
  match s.deviceIn[n]? with
  | some x => x
  | none => Config.deviceSample (s.draws + (n - s.deviceIn.length))

/-- `s` with the Device's next `n` answers used up. -/
def usedSamples (n : Nat) (s : State) : State :=
  { s with deviceIn := s.deviceIn.drop n, draws := s.draws + (n - s.deviceIn.length) }

/-- The byte that samples `8*j` to `8*j+7` of the Device make: bit `i` is 1 exactly where the sample is 1
(R54, R102). -/
def deviceByte (s : State) (j : Nat) : Byte :=
  BitVec.ofFnLE fun i : Fin 8 => decide (deviceStream s (8 * j + i.val) = .one)

/-- The Clock's next answer (R163). -/
def clockStream (s : State) : ClockTime :=
  match s.clockIn with
  | t :: _ => t
  | [] => Config.clockReading s.draws

/-- `s` with the Clock's next answer used up. -/
def usedClock (s : State) : State :=
  match s.clockIn with
  | _ :: ts => { s with clockIn := ts }
  | [] => { s with draws := s.draws + 1 }

/-! ## Strings -/

/-- The logical characters of a string: each character with whether a dot follows it, dots that no
character takes left out (R121). -/
def logicalChars : Str → List (Chr × Bool)
  | [] => []
  | [c] => if c = dotChr then [] else [(c, false)]
  | c :: d :: rest =>
    if c = dotChr then logicalChars (d :: rest)
    else if d = dotChr then (c, true) :: logicalChars rest
    else (c, false) :: logicalChars (d :: rest)

/-- The grid byte of a logical character: the character's pattern, bit 7 for the dot (R121). -/
def cellOf (cfg : Params) (p : Chr × Bool) : Byte :=
  if p.2 then charToSeg cfg p.1 ||| 0x80#8 else charToSeg cfg p.1

/-- A hex character (R77). -/
def isHexChr (c : Chr) : Bool :=
  let n := c.toNat
  (0x30 ≤ n && n ≤ 0x39) || (0x41 ≤ n && n ≤ 0x46) || (0x61 ≤ n && n ≤ 0x66)

/-- The value of a hex character (R77); 0 for any other. -/
def hexDigitVal (c : Chr) : Nat :=
  let n := c.toNat
  if 0x30 ≤ n ∧ n ≤ 0x39 then n - 0x30
  else if 0x41 ≤ n ∧ n ≤ 0x46 then n - 0x37
  else if 0x61 ≤ n ∧ n ≤ 0x66 then n - 0x57
  else 0

/-! ## Traces -/

/-- How many settle delays a list of events holds (R249). -/
def settleCount (es : List PinEvent) : Nat := es.countP fun e => e == .settle

/-- A data-write transaction `<a d>` (R11). -/
def writeTx (a d : Byte) : Transaction := { written := [a, d], read := [] }

/-- A command transaction `<c>` (R11). -/
def commandTx (c : Byte) : Transaction := { written := [c], read := [] }

/-- The address `BASE(mode) + offset`, modulo 256 (R52, R75), by exact arithmetic. -/
def addressAt (cfg : Params) (m : Mode) (offset : Nat) : Byte :=
  BitVec.ofNat 8 (((perMode cfg.base m).toNat + offset) % 256)

/-- The transactions of WRGRID: grid `i` at `BASE + 2*i`, for the N grids in order (R123). -/
def gridTxs (cfg : Params) (m : Mode) (g : Vector Byte 7) : List Transaction :=
  (List.range (nGrids m)).map fun i => writeTx (addressAt cfg m (2 * i)) (g.toList.getD i 0x00#8)

/-- The transactions of the initialization sequence (R126). -/
def initTxs (cfg : Params) (m : Mode) (b : Fin 16) : List Transaction :=
  [commandTx (perMode cfg.cmdMode m), commandTx cfg.cmdDataAutoinc, commandTx cfg.cmdBright[b]]

/-- `es` is a trace of its own that cuts no transaction, and its transactions are `txs` (R11, R59). -/
def Carries (es : List PinEvent) (txs : List Transaction) : Prop :=
  wholeTrace es = true ∧ transactionsOf es = txs

/-- The pin events of one byte shifted out, as the pseudocode of R100 lists them. -/
def shiftOut (b : Byte) : List PinEvent :=
  (List.range 8).flatMap fun i =>
    [.level .clk false, .settle, .level .dio (b.getLsbD i), .settle, .level .clk true, .settle]

/-- The pin events of samples `first` to `first + n - 1` of the Device being clocked in (R102). -/
def clockedIn (s : State) (first n : Nat) : List PinEvent :=
  (List.range n).flatMap fun i =>
    [.level .clk false, .settle, .level .clk true, .settle, .sample (deviceStream s (first + i))]

/-- The pin events of one data-write transaction, as R122 lists them. -/
def writeOut (a d : Byte) : List PinEvent :=
  [.level .stb false, .settle] ++ shiftOut a ++ shiftOut d ++ [.settle, .level .stb true, .settle]

/-- The pin events of one command transaction, as R101 lists them. -/
def commandOut (c : Byte) : List PinEvent :=
  [.level .stb false, .settle] ++ shiftOut c ++ [.settle, .level .stb true, .settle]

/-- The pin events of INITSEQ under mode `m` and brightness `b`, as R126 lists them. -/
def initOut (cfg : Params) (m : Mode) (b : Fin 16) : List PinEvent :=
  commandOut (perMode cfg.cmdMode m) ++ commandOut cfg.cmdDataAutoinc ++ commandOut cfg.cmdBright[b]

/-- The pin events of WRGRID of the grid bytes `g` under mode `m`, as R123 lists them. -/
def gridOut (cfg : Params) (m : Mode) (g : Vector Byte 7) : List PinEvent :=
  (List.range (nGrids m)).flatMap fun i =>
    writeOut (addressAt cfg m (2 * i)) (g.toList.getD i 0x00#8)

/-- The pin events of WRRAWB of the bytes `b` under mode `m`, as R124 lists them. -/
def rawOut (cfg : Params) (m : Mode) (b : List Byte) : List PinEvent :=
  (List.range 14).flatMap fun j => writeOut (addressAt cfg m j) (b.getD j 0x00#8)

/-- The pin events of SCANKEYS with the Device's next 40 answers, as R140 lists them. -/
def scanOut (s : State) : List PinEvent :=
  [.level .stb false, .settle] ++ shiftOut s.cfg.cmdReadKeys ++ [.dir .input, .settle] ++
    clockedIn s 0 40 ++ [.level .stb true, .settle, .dir .output, .level .dio true]

/-- The four events that bring the lines to idle, as R188 and R189 list them. -/
def idleOut : List PinEvent :=
  [.level .stb true, .level .clk true, .dir .output, .level .dio true]

/-- `s` with events `es` emitted that leave STROBE and CLOCK high, DATA at `d`, and its direction alone:
pin registers and trace, and no other field. -/
def drove (es : List PinEvent) (d : Bool) (s : State) : State :=
  { s with pins := { s.pins with stb := true, clk := true, dio := d }, trace := s.trace ++ es }

/-- `s` with `g` written to Grid and sent to the display by the events `es`: Grid, its grid
count, pin registers and trace, and no other field (R23, R123). -/
def showed (es : List PinEvent) (g : Vector Byte 7) (s : State) : State :=
  drove es ((g.toList.getD (nGrids s.mode - 1) 0x00#8).getLsbD 7)
    { s with grid := g, renderN := nGrids s.mode }

/-- The byte of the display register at an address, as the trace so far leaves it; none where no data
write has reached it (R51). -/
def registerAt (s : State) (a : Nat) : Option Byte := Memory.read (deviceImage s.trace) a

/-- A pin event with the sampled value left out. -/
def blindEvent : PinEvent → PinEvent
  | .sample _ => .sample .undef
  | e => e

/-! ## Requests -/

/-- `s` after a response to the holder of the grant, and nothing else (R12). -/
def answered (st : Status) (v : Value) (s : State) : State :=
  { s with responses := s.responses ++ [{ dest := s.owner, status := st, value := v }] }

/-- Where no engine runs, `i` is answered with ENotRunning and nothing else changes (R175, R205). -/
def NeedsEngine (i : Instr) : Prop :=
  ∀ s : State, engineRuns s.phase = false → exec i s = .next (answered .eNotRunning .none s)

/-- The bytes of `i` on the operation port are the tag `t` and the operand bytes `bs`, both ways (R80). -/
def RequestIs (i : Instr) (t : Byte) (bs : List Byte) : Prop :=
  encode i = t :: bs ∧ decode .port (t :: bs) = .ok i

/-- The operand bytes of a `str`: its length in two bytes, least significant first, then its characters
(R81). -/
def strOperand (t : Str) : List Byte :=
  [BitVec.ofNat 8 t.length, BitVec.ofNat 8 (t.length / 256)] ++ t

end Sys2Proof.Safety
end

