-- ==== Sys2Proof/Certificates/Slice0/Obligations.lean ====
section
/-!
DEFINITION. The statements for the provers. A statement about an instruction gives the whole next state:
the record update names every field that changes, so every field it does not name is unchanged. The
events on the wires are given twice where it says something: as the list of the rule's pseudocode, and
as the transactions that the byte-level view of R11 reads from them. Where a statement speaks of `turns`
(log 6), `pending` (log 8), `stopWait` (log 12), `renderN`, `trace` or `responses` (log 13), it speaks of the
model's own field, by which the model holds what the rule speaks of.
-/

open Sys2Proof Sys2Proof.Machine Sys2Proof.Safety

/-! ## Serial framing -/

/-- R100. SENDBYTE shifts its byte out bit 0 first, 48 events; CLOCK ends 1, DATA holds bit 7. -/
def Obligations.SendByteShiftsBitsLsbFirst : Prop :=
  (∀ (b : Byte) (s : State), engineRuns s.phase = true →
    exec (.sendbyte b) s = .next (answered .ok .none
      { s with
        pins := { s.pins with clk := true, dio := b.getLsbD 7 }
        trace := s.trace ++ shiftOut b }) ∧
    (shiftOut b).length = 48) ∧
  ∀ b : Byte, NeedsEngine (.sendbyte b) ∧ RequestIs (.sendbyte b) 0x01 [b]

/-- R101. SENDCMD is one strobe window around one byte, 53 events, read as the transaction `<c>`. -/
def Obligations.SendCmdIsOneCommandTransaction : Prop :=
  (∀ (c : Byte) (s : State), engineRuns s.phase = true →
    exec (.sendcmd c) s =
      .next (answered .ok .none (drove (commandOut c) (c.getLsbD 7) s)) ∧
    (commandOut c).length = 53 ∧ Carries (commandOut c) [commandTx c]) ∧
  ∀ c : Byte, NeedsEngine (.sendcmd c) ∧ RequestIs (.sendcmd c) 0x02 [c]

/-- R102. READBYTE clocks in the Device's next eight answers and returns the byte whose bit `i` is 1
exactly where answer `i` is 1 (0 and undef give 0); STROBE, DATA and the direction stay. -/
def Obligations.ReadByteMakesByteOfEightSamples : Prop :=
  (∀ s : State, engineRuns s.phase = true →
    exec .readbyte s = .next (answered .ok (.b8 (deviceByte s 0)) (usedSamples 8
      { s with
        pins := { s.pins with clk := true }
        trace := s.trace ++ clockedIn s 0 8 })) ∧
    (clockedIn s 0 8).length = 40 ∧
    ∀ i : Nat, i < 8 → (deviceByte s 0).getLsbD i = decide (deviceStream s i = .one)) ∧
  NeedsEngine .readbyte ∧ RequestIs .readbyte 0x03 []

/-! ## Display encoding -/

/-- R120. CHAR2SEG takes digits and letters (either case) from the tables and gives 0 for anything else;
bit 7 is never set; the request answers that byte and changes nothing else. -/
def Obligations.Char2SegFollowsTables : Prop :=
  (∀ (cfg : Params) (d : Fin 10),
    charToSeg cfg (BitVec.ofNat 8 (0x30 + d.val)) = (cfg.segDigit[d]).setWidth 8) ∧
  (∀ (cfg : Params) (l : Fin 26),
    charToSeg cfg (BitVec.ofNat 8 (0x41 + l.val)) = (cfg.segLetter[l]).setWidth 8 ∧
    charToSeg cfg (BitVec.ofNat 8 (0x61 + l.val)) = (cfg.segLetter[l]).setWidth 8) ∧
  (∀ (cfg : Params) (c : Chr),
    ¬ (0x30 ≤ c.toNat ∧ c.toNat ≤ 0x39) → ¬ (0x41 ≤ c.toNat ∧ c.toNat ≤ 0x5A) →
    ¬ (0x61 ≤ c.toNat ∧ c.toNat ≤ 0x7A) → charToSeg cfg c = 0x00#8) ∧
  (∀ (cfg : Params) (c : Chr), (charToSeg cfg c).getLsbD 7 = false) ∧
  (∀ (c : Chr) (s : State), engineRuns s.phase = true →
    exec (.char2seg c) s = .next (answered .ok (.b8 (charToSeg s.cfg c)) s)) ∧
  ∀ c : Chr, NeedsEngine (.char2seg c) ∧ RequestIs (.char2seg c) 0x10 [c]

/-- R121. Grid `i` of RENDER is the `i`-th logical character's pattern, with bit 7 exactly where a dot
follows it; grids from N on and grids the text does not reach are blank; the request answers the
seven bytes and changes nothing else. -/
def Obligations.RenderPairsEachCharacterWithItsDot : Prop :=
  (∀ (cfg : Params) (m : Mode) (text : Str) (i : Fin 7),
    (renderGrid cfg m text)[i] =
      if i.val < nGrids m then (((logicalChars text)[i.val]?).map (cellOf cfg)).getD 0x00#8
      else 0x00#8) ∧
  (∀ (text : Str) (s : State), engineRuns s.phase = true →
    exec (.render text) s =
      .next (answered .ok (.bytes (renderGrid s.cfg s.mode text).toList) s)) ∧
  ∀ text : Str, NeedsEngine (.render text) ∧
    (text.length < 65536 → RequestIs (.render text) 0x11 (strOperand text))

/-- R122. WRREG is one strobe window of address and data, 101 events, read as `<a d>`. -/
def Obligations.WrRegIsOneWriteTransaction : Prop :=
  (∀ (a d : Byte) (s : State), engineRuns s.phase = true →
    exec (.wrreg a d) s =
      .next (answered .ok .none (drove (writeOut a d) (d.getLsbD 7) s)) ∧
    (writeOut a d).length = 101 ∧ Carries (writeOut a d) [writeTx a d]) ∧
  ∀ a d : Byte, NeedsEngine (.wrreg a d) ∧ RequestIs (.wrreg a d) 0x12 [a, d]

/-- R123. WRGRID sends the first N grids in index order, grid `i` to (BASE + 2*i) mod 256, each in a
strobe window of its own, 101*N events; no state but pins and trace. -/
def Obligations.WrGridSendsFirstGridsInOrder : Prop :=
  (∀ s : State, engineRuns s.phase = true → ∃ es : List PinEvent,
    exec .wrgrid s = .next (answered .ok .none
      (drove es ((s.grid.toList.getD (nGrids s.mode - 1) 0x00#8).getLsbD 7) s)) ∧
    es = gridOut s.cfg s.mode s.grid ∧
    es.length = 101 * nGrids s.mode ∧ Carries es (gridTxs s.cfg s.mode s.grid)) ∧
  NeedsEngine .wrgrid ∧ RequestIs .wrgrid 0x13 []

/-- R124. WRRAWB writes its 14 bytes to BASE .. BASE+13 (mod 256), one transaction each, 1414 events, in
every mode; Grid and text keep their values. -/
def Obligations.WrRawBWritesFourteenRegisters : Prop :=
  (∀ (b : List Byte) (s : State), b.length = 14 → engineRuns s.phase = true →
    ∃ es : List PinEvent,
    exec (.wrrawb b) s =
      .next (answered .ok .none (drove es ((b.getD 13 0x00#8).getLsbD 7) s)) ∧
    es = rawOut s.cfg s.mode b ∧
    es.length = 1414 ∧
    Carries es ((List.range 14).map fun j =>
      writeTx (addressAt s.cfg s.mode j) (b.getD j 0x00#8))) ∧
  ∀ b : List Byte, NeedsEngine (.wrrawb b) ∧ (b.length = 14 → RequestIs (.wrrawb b) 0x14 b)

/-- R126. INITSEQ is the three command transactions mode, data, brightness, 159 events, with the mode and
the brightness in force. -/
def Obligations.InitSeqSendsModeDataBrightness : Prop :=
  (∀ s : State, engineRuns s.phase = true → ∃ es : List PinEvent,
    exec .initseq s =
      .next (answered .ok .none (drove es ((s.cfg.cmdBright[s.brightness]).getLsbD 7) s)) ∧
    es = initOut s.cfg s.mode s.brightness ∧
    es.length = 159 ∧ Carries es (initTxs s.cfg s.mode s.brightness)) ∧
  NeedsEngine .initseq ∧ RequestIs .initseq 0x15 []

/-- R249 (its event counts). How many settle delays each primitive adds to the trace. -/
def Obligations.SettleDelaysPerOperation : Prop :=
  ∀ (s : State) (b a d c : Byte) (bs : List Byte), engineRuns s.phase = true →
    ∀ p ∈ ([(.sendbyte b, 24), (.sendcmd c, 27), (.readbyte, 16), (.wrreg a d, 51),
        (.wrgrid, 51 * nGrids s.mode), (.wrrawb bs, 714), (.initseq, 81), (.scankeys, 107)] :
        List (Instr × Nat)),
      ∃ t : State, exec p.1 s = .next t ∧ settleCount t.trace = settleCount s.trace + p.2

/-! ## Key scanner -/

/-- R140. SCANKEYS is one strobe window: the read-keys command, DATA to input, 40 read cells, the strobe
released before DATA is driven again; 256 events, read as `<c | k0 .. k4>`; it returns the Device's
next five bytes and leaves the lines idle; nothing is queued. -/
def Obligations.ScanKeysReadsFiveBytesInOneWindow : Prop :=
  (∀ s : State, engineRuns s.phase = true → ∃ es : List PinEvent,
    exec .scankeys s = .next (answered .ok (.bytes ((List.range 5).map (deviceByte s)))
      (usedSamples 40 { s with pins := Pins.idle, trace := s.trace ++ es })) ∧
    es = scanOut s ∧
    es.length = 256 ∧
    Carries es [⟨[s.cfg.cmdReadKeys], (List.range 5).map (deviceByte s)⟩]) ∧
  NeedsEngine .scankeys ∧ RequestIs .scankeys 0x20 []

/-- R141. DECODEKEY gives the key of the first entry in table order whose bit is set, and none exactly
where no entry's bit is set; the request answers that and changes nothing else. -/
def Obligations.DecodeKeyTakesFirstEntryInTableOrder : Prop :=
  (∀ (keymap : List KeyEntry) (k : List Byte) (c : Chr),
    decodeKey keymap k = some c ↔
      ∃ pre e post, keymap = pre ++ e :: post ∧
        (k.getD e.byteIdx.val 0x00#8).getLsbD e.bitIdx.val = true ∧ e.key = c ∧
        ∀ f ∈ pre, (k.getD f.byteIdx.val 0x00#8).getLsbD f.bitIdx.val = false) ∧
  (∀ (keymap : List KeyEntry) (k : List Byte),
    decodeKey keymap k = none ↔
      ∀ f ∈ keymap, (k.getD f.byteIdx.val 0x00#8).getLsbD f.bitIdx.val = false) ∧
  (∀ (k : List Byte) (s : State), engineRuns s.phase = true →
    exec (.decodekey k) s = .next (answered .ok (.opt8 (decodeKey s.cfg.keymap k)) s)) ∧
  ∀ k : List Byte, NeedsEngine (.decodekey k) ∧ (k.length = 5 → RequestIs (.decodekey k) 0x21 k)

/-- R142. PUSHKEY appends where the queue is below its capacity and drops the new key where it is full;
the answer is OK either way. -/
def Obligations.PushKeyAppendsOrDropsNewest : Prop :=
  (∀ (c : Chr) (s : State), engineRuns s.phase = true →
    (s.queue.length < s.cfg.queueCap.val →
      exec (.pushkey c) s = .next (answered .ok .none { s with queue := s.queue ++ [c] })) ∧
    (s.cfg.queueCap.val ≤ s.queue.length →
      exec (.pushkey c) s = .next (answered .ok .none s))) ∧
  ∀ c : Chr, NeedsEngine (.pushkey c) ∧ RequestIs (.pushkey c) 0x22 [c]

/-! ## Control surface -/

/-- R176, R178, R180, R182, R186. The five getters answer the field they read and change nothing else. -/
def Obligations.GettersAnswerAndChangeNothing : Prop :=
  (∀ s : State, engineRuns s.phase = true →
    exec .getbrt s = .next (answered .ok (.b8 (BitVec.ofNat 8 s.brightness.val)) s) ∧
    exec .gettm s = .next (answered .ok (.b8 (if s.timeMode then 1 else 0)) s) ∧
    exec .gettxt s = .next (answered .ok (.str s.text) s) ∧
    exec .getmode s = .next (answered .ok (.b8 (match s.mode with
      | .m4x13 => 0 | .m5x12 => 1 | .m6x11 => 2 | .m7x10 => 3)) s) ∧
    exec .showkeys s = .next (answered .ok (.str s.queue) s)) ∧
  (NeedsEngine .getbrt ∧ RequestIs .getbrt 0x40 []) ∧
  (NeedsEngine .gettm ∧ RequestIs .gettm 0x42 []) ∧
  (NeedsEngine .gettxt ∧ RequestIs .gettxt 0x44 []) ∧
  (NeedsEngine .getmode ∧ RequestIs .getmode 0x46 []) ∧
  NeedsEngine .showkeys ∧ RequestIs .showkeys 0x4A []

/-- R177. SETBRT stores its operand clamped to 0..15 at both ends and sends the whole initialization
sequence with the new value; the display contents are not rewritten. -/
def Obligations.SetBrtClampsAndReissuesInit : Prop :=
  (∀ (v : Int) (s : State), engineRuns s.phase = true →
    ∃ (b : Fin 16) (es : List PinEvent), (b.val : Int) = max 0 (min v 15) ∧
      exec (.setbrt v) s = .next (answered .ok .none
        (drove es ((s.cfg.cmdBright[b]).getLsbD 7) { s with brightness := b })) ∧
      es = initOut s.cfg s.mode b ∧ Carries es (initTxs s.cfg s.mode b)) ∧
  ∀ v : Int, NeedsEngine (.setbrt v) ∧
    (-2147483648 ≤ v → v < 2147483648 → RequestIs (.setbrt v) 0x41
      ((List.range 4).map fun k => BitVec.ofInt 8 (v / 256 ^ k)))

/-- R179. SETTM on sets the flag and emits nothing; SETTM off clears it, renders the stored text and
sends it, also when the flag was already off. -/
def Obligations.SetTmOffRedrawsStoredText : Prop :=
  (∀ (f : Byte) (s : State), engineRuns s.phase = true →
    (f ≠ 0x00#8 → exec (.settm f) s = .next (answered .ok .none { s with timeMode := true })) ∧
    (f = 0x00#8 → ∃ es : List PinEvent,
      exec (.settm f) s = .next (answered .ok .none
        (showed es (renderGrid s.cfg s.mode s.text) { s with timeMode := false })) ∧
      es = gridOut s.cfg s.mode (renderGrid s.cfg s.mode s.text) ∧
      Carries es (gridTxs s.cfg s.mode (renderGrid s.cfg s.mode s.text)))) ∧
  ∀ f : Byte, NeedsEngine (.settm f) ∧ RequestIs (.settm f) 0x43 [f]

/-- R181. SETTXT stores the string as given, renders it, writes Grid and sends it. -/
def Obligations.SetTxtStoresRendersAndSends : Prop :=
  (∀ (text : Str) (s : State), engineRuns s.phase = true → ∃ es : List PinEvent,
    exec (.settxt text) s = .next (answered .ok .none
      (showed es (renderGrid s.cfg s.mode text) { s with text := text })) ∧
    es = gridOut s.cfg s.mode (renderGrid s.cfg s.mode text) ∧
    Carries es (gridTxs s.cfg s.mode (renderGrid s.cfg s.mode text))) ∧
  ∀ text : Str, NeedsEngine (.settxt text) ∧
    (text.length < 65536 → RequestIs (.settxt text) 0x45 (strOperand text))

/-- R183. SETMODE with one of the four selectors stores the mode and sends the initialization sequence
for it, Grid and text kept; any other selector fails with EMalformed and changes nothing. -/
def Obligations.SetModeSelectsOrRejects : Prop :=
  (∀ (sel : Byte) (m : Mode) (s : State), engineRuns s.phase = true →
    (sel, m) ∈ ([(0, .m4x13), (1, .m5x12), (2, .m6x11), (3, .m7x10)] : List (Byte × Mode)) →
    ∃ es : List PinEvent,
      exec (.setmode sel) s = .next (answered .ok .none
        (drove es ((s.cfg.cmdBright[s.brightness]).getLsbD 7) { s with mode := m })) ∧
      es = initOut s.cfg m s.brightness ∧ Carries es (initTxs s.cfg m s.brightness)) ∧
  (∀ (sel : Byte) (s : State), engineRuns s.phase = true → 4 ≤ sel.toNat →
    exec (.setmode sel) s = .next (answered .eMalformed .none s)) ∧
  ∀ sel : Byte, NeedsEngine (.setmode sel) ∧ RequestIs (.setmode sel) 0x47 [sel]

/-- R184. POPKEY answers the oldest key and removes it; on an empty queue it answers OK and none. -/
def Obligations.PopKeyTakesTheOldest : Prop :=
  (∀ (c : Chr) (q : List Chr) (s : State), engineRuns s.phase = true → s.queue = c :: q →
    exec .popkey s = .next (answered .ok (.opt8 (some c)) { s with queue := q })) ∧
  (∀ s : State, engineRuns s.phase = true → s.queue = [] →
    exec .popkey s = .next (answered .ok (.opt8 none) s)) ∧
  NeedsEngine .popkey ∧ RequestIs .popkey 0x48 []

/-- R185. CLRKEYS empties the queue, blanks Grid and sends N blank grids; the text is kept. -/
def Obligations.ClrKeysEmptiesQueueAndBlanks : Prop :=
  (∀ s : State, engineRuns s.phase = true → ∃ es : List PinEvent,
    exec .clrkeys s = .next (answered .ok .none
      (showed es (Vector.replicate 7 0x00#8) { s with queue := [] })) ∧
    es = gridOut s.cfg s.mode (Vector.replicate 7 0x00#8) ∧
    Carries es ((List.range (nGrids s.mode)).map fun i =>
      writeTx (addressAt s.cfg s.mode (2 * i)) 0x00#8)) ∧
  NeedsEngine .clrkeys ∧ RequestIs .clrkeys 0x49 []

/-- R125. HEXBYTES accepts exactly the strings of 28 hex characters and makes byte `j` of characters
`2j` (high nibble) and `2j+1`. -/
def Obligations.HexBytesAcceptsTwentyEightHexCharacters : Prop :=
  (∀ t : Str, t.length = 28 → (∀ c ∈ t, isHexChr c = true) →
    ∃ bs : List Byte, hexBytes t = some bs ∧ bs.length = 14 ∧
      ∀ j : Nat, j < 14 → bs.getD j 0x00#8 =
        BitVec.ofNat 8 (hexDigitVal (t.getD (2 * j) 0x00#8) * 16 +
          hexDigitVal (t.getD (2 * j + 1) 0x00#8))) ∧
  ∀ t : Str, (t.length ≠ 28 ∨ ∃ c ∈ t, isHexChr c = false) → hexBytes t = none

/-- R187. WRRAW of a well-formed string writes its 14 bytes to the 14 registers; of any other string it
fails with EMalformed, before any event, and changes nothing. -/
def Obligations.WrRawIsAllOrNothing : Prop :=
  (∀ (t : Str) (s : State), engineRuns s.phase = true → t.length = 28 →
    (∀ c ∈ t, isHexChr c = true) → ∃ (bs : List Byte) (es : List PinEvent),
      bs.length = 14 ∧
      (∀ j : Nat, j < 14 → bs.getD j 0x00#8 =
        BitVec.ofNat 8 (hexDigitVal (t.getD (2 * j) 0x00#8) * 16 +
          hexDigitVal (t.getD (2 * j + 1) 0x00#8))) ∧
      exec (.wrraw t) s =
        .next (answered .ok .none (drove es ((bs.getD 13 0x00#8).getLsbD 7) s)) ∧
      es = rawOut s.cfg s.mode bs ∧
      Carries es ((List.range 14).map fun j =>
        writeTx (addressAt s.cfg s.mode j) (bs.getD j 0x00#8))) ∧
  (∀ (t : Str) (s : State), engineRuns s.phase = true →
    (t.length ≠ 28 ∨ ∃ c ∈ t, isHexChr c = false) →
    exec (.wrraw t) s = .next (answered .eMalformed .none s)) ∧
  ∀ t : Str, NeedsEngine (.wrraw t) ∧
    (t.length < 65536 → RequestIs (.wrraw t) 0x4B (strOperand t))

/-! ## Engine start and shutdown -/

/-- R188. START in Off with the lines obtained drives the lines idle, sets the defaults, sends the
initialization sequence for them and enters Startup(0); without the lines it enters Failed and
answers EFatalLines; in any other phase it answers EAlreadyRunning and changes nothing. That DATA is then
bit 7 of the brightness command for 10 is log 19 (DEDUCED): R188's pseudocode sends INITSEQ after the idle
events, and the 1 that R242 and R36 give is that of the reset record before INITSEQ (R37). -/
def Obligations.StartCreatesTheEngine : Prop :=
  (∀ (f : Byte) (s : State), s.phase = .off → f ≠ 0x00#8 →
    ∃ (es : List PinEvent) (n : Nat),
    exec (.start f) s = .next (answered .ok .none
      { s with
        mode := .m6x11, brightness := 10, grid := Vector.replicate 7 0x00#8, text := [],
        timeMode := false, queue := [], phase := .startup 0, stopReq := false, renderN := n,
        pins := ⟨true, true, (s.cfg.cmdBright[10]).getLsbD 7, .output⟩,
        trace := s.trace ++ idleOut ++ es }) ∧
    es = initOut s.cfg .m6x11 10 ∧ Carries es (initTxs s.cfg .m6x11 10)) ∧
  (∀ s : State, s.phase = .off →
    exec (.start 0) s = .next (answered .eFatalLines .none { s with phase := .failed })) ∧
  (∀ (f : Byte) (s : State), s.phase ≠ .off →
    exec (.start f) s = .next (answered .eAlreadyRunning .none s)) ∧
  ∀ f : Byte, RequestIs (.start f) 0x70 [f]

/-- R37, R20, R231. START's steps 1 and 2 set the record to its reset values, DATA at 1 among them, and
change nothing else; the whole of START is then INITSEQ from that record, and Startup(0) (R188). -/
def Obligations.StartSetsTheResetRecordBeforeInit : Prop :=
  (∀ s : State, ∃ n : Nat,
    startReset s =
      { s with
        mode := .m6x11, brightness := 10, grid := Vector.replicate 7 0x00#8, text := [],
        timeMode := false, queue := [], stopReq := false, renderN := n,
        pins := ⟨true, true, true, .output⟩, trace := s.trace ++ idleOut }) ∧
  ∀ (f : Byte) (s : State), s.phase = .off → f ≠ 0x00#8 →
    exec (.start f) s =
      .next (answered .ok .none { initSeq (startReset s) with phase := .startup 0 })

/-- R242. Where DATA rests. After SENDBYTE, SENDCMD and WRREG it keeps bit 7 of the last byte sent; SCANKEYS
and the end of STOP leave it at 1; START's own line events leave it at 1 (R37), and the INITSEQ inside
START ends in a SENDCMD, so at START's end DATA is 1 exactly where bit 7 of that byte is (log 19, DEDUCED).
CLOCK and STROBE rest high and DATA is an output every time. -/
def Obligations.DataKeepsTheLastLevelDriven : Prop :=
  (∀ (b : Byte) (s : State), engineRuns s.phase = true → LinesAtRest s.pins →
    ∃ t : State, exec (.sendbyte b) s = .next t ∧ t.pins = ⟨true, true, b.getLsbD 7, .output⟩) ∧
  (∀ (c : Byte) (s : State), engineRuns s.phase = true → LinesAtRest s.pins →
    ∃ t : State, exec (.sendcmd c) s = .next t ∧ t.pins = ⟨true, true, c.getLsbD 7, .output⟩) ∧
  (∀ (a d : Byte) (s : State), engineRuns s.phase = true → LinesAtRest s.pins →
    ∃ t : State, exec (.wrreg a d) s = .next t ∧ t.pins = ⟨true, true, d.getLsbD 7, .output⟩) ∧
  (∀ s : State, engineRuns s.phase = true →
    ∃ t : State, exec .scankeys s = .next t ∧ t.pins = ⟨true, true, true, .output⟩) ∧
  (∀ (f : Byte) (s : State), s.phase = .off → f ≠ 0x00#8 →
    (startReset s).pins = ⟨true, true, true, .output⟩ ∧
    ∃ t : State, exec (.start f) s = .next t ∧ LinesAtRest t.pins ∧
      (t.pins.dio = true ↔ (s.cfg.cmdBright[10]).getLsbD 7 = true)) ∧
  ∀ (i : Nat) (rest : List Agent) (s : State),
    s.owner = .none → s.turns = .caller i :: rest → Owner.caller i ∈ s.stopWait →
    s.phase = .halted →
    ∃ t : State, step s = .next t ∧ t.pins = ⟨true, true, true, .output⟩

/-- R189. STOP. First operation: ENotRunning in Off; Off and OK from Failed, with no event; otherwise the
stop request is set and the caller waits. Second operation, at a turn of the waiting caller: it waits on
unless the phase is Halted or Off; in Halted it drives the lines idle, enters Off, clears the request
and answers OK; in Off it answers ENotRunning. -/
def Obligations.StopTakesTwoOperations : Prop :=
  (∀ s : State, s.phase = .off →
    exec .stop s = .next (answered .eNotRunning .none s)) ∧
  (∀ s : State, s.phase = .failed →
    exec .stop s = .next (answered .ok .none { s with phase := .off })) ∧
  (∀ s : State, engineRuns s.phase = true →
    exec .stop s = .next { s with stopReq := true, stopWait := s.stopWait ++ [s.owner] }) ∧
  RequestIs .stop 0x7F [] ∧
  ∀ (i : Nat) (rest : List Agent) (s : State),
    s.owner = .none → s.turns = .caller i :: rest → Owner.caller i ∈ s.stopWait →
    (s.phase = .halted →
      step s = .next
        { s with
          turns := rest, stopWait := s.stopWait.erase (.caller i), pins := Pins.idle,
          phase := .off, stopReq := false, trace := s.trace ++ idleOut,
          responses := s.responses ++ [⟨.caller i, .ok, .none⟩] }) ∧
    (s.phase = .off →
      step s = .next
        { s with
          turns := rest, stopWait := s.stopWait.erase (.caller i),
          responses := s.responses ++ [⟨.caller i, .eNotRunning, .none⟩] }) ∧
    (s.phase ≠ .halted → s.phase ≠ .off → step s = .next { s with turns := rest })

/-- R189, R162, R234. From any state of a looping engine, a STOP request, a turn of the loop and a turn of
the caller end in Off with the lines idle, one OK to the caller, and no event but the four idle ones. -/
def Obligations.StopThenHaltLeadsToOff : Prop :=
  ∀ (i : Nat) (later : List Agent) (rest : List Request) (s : State),
    s.owner = .none → loopActive s.phase = true → Owner.caller i ∉ s.stopWait →
    s.turns = .caller i :: .loop :: .caller i :: later →
    s.pending = { caller := i, channel := .port, bytes := [0x7F#8] } :: rest →
    Sys2Proof.core.run 3 s = .next
      { s with
        turns := later, pending := rest, phase := .off, stopReq := false, pins := Pins.idle,
        trace := s.trace ++ idleOut,
        responses := s.responses ++ [⟨.caller i, .ok, .none⟩] }

/-! ## Wire bytes -/

/-- R74, R75. Each WIRE row sends its byte through SENDBYTE: the parameter's value, or BASE of the mode in
force plus the offset, modulo 256. That a row driven alone goes through the envelope, ENotRunning where no
engine runs and OK otherwise, is the model's choice (log 10, DESIGN CHOICE). -/
def Obligations.WireBytesGoThroughSendByte : Prop :=
  (∀ (i : Instr) (b : Byte) (s : State), engineRuns s.phase = true →
    ((∃ m, i = .cmdMode m ∧ b = perMode s.cfg.cmdMode m) ∨
      (i = .cmdDataAutoinc ∧ b = s.cfg.cmdDataAutoinc) ∨
      (i = .cmdReadKeys ∧ b = s.cfg.cmdReadKeys) ∨
      (∃ off, i = .addr off ∧ b = addressAt s.cfg s.mode off.toNat) ∨
      (∃ v, i = .cmdBright v ∧ b = s.cfg.cmdBright[v.toNat])) →
    exec i s = .next (answered .ok .none
      { s with
        pins := { s.pins with clk := true, dio := b.getLsbD 7 }
        trace := s.trace ++ shiftOut b })) ∧
  (∀ m : Mode, NeedsEngine (.cmdMode m)) ∧ NeedsEngine .cmdDataAutoinc ∧
  NeedsEngine .cmdReadKeys ∧ (∀ off : BitVec 4, NeedsEngine (.addr off)) ∧
  ∀ v : BitVec 4, NeedsEngine (.cmdBright v)

/-- R74, R75, R89. Under the default instantiation of the parameters (log 3, PRESUMED), the instruction that
a byte on the wire channel (log 9, DEDUCED) decodes to sends that very byte. That it runs alone, in the
envelope, and is answered OK is the model's choice (log 10, DESIGN CHOICE). -/
def Obligations.DefaultWireBytesSendThemselves : Prop :=
  ∀ (b : Byte) (i : Instr) (s : State), decode .wire [b] = .ok i →
    s.cfg = Config.defaultParams → engineRuns s.phase = true →
    exec i s = .next (answered .ok .none
      { s with
        pins := { s.pins with clk := true, dio := b.getLsbD 7 }
        trace := s.trace ++ shiftOut b })

/-! ## The polling loop -/

/-- R156. Frame `k` in 0..9 shows "k." six times and holds; frame 10 shows BANNER and holds; both go on to
the next frame; the text is not written; the pause comes after the grant is released. -/
def Obligations.FrameStepShowsDigitsThenBanner : Prop :=
  ∀ (k j : Fin 12) (rest : List Agent) (s : State),
    s.owner = .none → s.turns = .loop :: rest → s.phase = .startup k → s.stopReq = false →
    j.val = k.val + 1 →
    ∃ (es : List PinEvent) (text : Str) (pause : Pause),
      (k.val ≤ 9 → pause = .startupHold ∧
        text = [BitVec.ofNat 8 (0x30 + k.val), 0x2E, BitVec.ofNat 8 (0x30 + k.val), 0x2E,
          BitVec.ofNat 8 (0x30 + k.val), 0x2E, BitVec.ofNat 8 (0x30 + k.val), 0x2E,
          BitVec.ofNat 8 (0x30 + k.val), 0x2E, BitVec.ofNat 8 (0x30 + k.val), 0x2E]) ∧
      (k.val = 10 → pause = .bannerHold ∧ text = s.cfg.banner) ∧
      es = gridOut s.cfg s.mode (renderGrid s.cfg s.mode text) ∧
      Carries es (gridTxs s.cfg s.mode (renderGrid s.cfg s.mode text)) ∧
      ∃ t : State,
        t = showed es (renderGrid s.cfg s.mode text) { s with turns := rest, phase := .startup j } ∧
        step s = .next { t with trace := t.trace ++ [.pause pause] }

/-- R157. Frame 11 blanks the display and enters Steady, with no pause. -/
def Obligations.LastFrameClearsAndEntersSteady : Prop :=
  ∀ (rest : List Agent) (s : State),
    s.owner = .none → s.turns = .loop :: rest → s.phase = .startup 11 → s.stopReq = false →
    ∃ es : List PinEvent,
      es = gridOut s.cfg s.mode (Vector.replicate 7 0x00#8) ∧
      Carries es ((List.range (nGrids s.mode)).map fun i =>
        writeTx (addressAt s.cfg s.mode (2 * i)) 0x00#8) ∧
      step s = .next
        (showed es (Vector.replicate 7 0x00#8) { s with turns := rest, phase := .steady })

/-- R158, R159. With the time mode on, a steady iteration draws the time, shows "HH.MM.SS" and pauses; no
key is scanned and the text is not written. -/
def Obligations.TimeIterationShowsTheClock : Prop :=
  ∀ (rest : List Agent) (s : State),
    s.owner = .none → s.turns = .loop :: rest → s.phase = .steady → s.stopReq = false →
    s.timeMode = true →
    ∃ (es : List PinEvent) (g : Vector Byte 7) (t : State),
      g = renderGrid s.cfg s.mode
        [BitVec.ofNat 8 (0x30 + (clockStream s).hh.val / 10),
         BitVec.ofNat 8 (0x30 + (clockStream s).hh.val % 10), 0x2E,
         BitVec.ofNat 8 (0x30 + (clockStream s).mm.val / 10),
         BitVec.ofNat 8 (0x30 + (clockStream s).mm.val % 10), 0x2E,
         BitVec.ofNat 8 (0x30 + (clockStream s).ss.val / 10),
         BitVec.ofNat 8 (0x30 + (clockStream s).ss.val % 10)] ∧
      es = gridOut s.cfg s.mode g ∧ Carries es (gridTxs s.cfg s.mode g) ∧
      t = showed es g { usedClock s with turns := rest } ∧
      step s = .next { t with trace := t.trace ++ [.pause .timePause] }

/-- R158, R160, R143. With the time mode off, a steady iteration scans once, decodes at most one key,
appends it unless the queue is full, and pauses; Grid and text are untouched. -/
def Obligations.ScanIterationQueuesAtMostOneKey : Prop :=
  ∀ (rest : List Agent) (s : State),
    s.owner = .none → s.turns = .loop :: rest → s.phase = .steady → s.stopReq = false →
    s.timeMode = false →
    ∃ (es : List PinEvent) (q : List Chr),
      es = scanOut s ∧ Carries es [⟨[s.cfg.cmdReadKeys], (List.range 5).map (deviceByte s)⟩] ∧
      (∀ c : Chr, decodeKey s.cfg.keymap ((List.range 5).map (deviceByte s)) = some c →
        q = if s.queue.length < s.cfg.queueCap.val then s.queue ++ [c] else s.queue) ∧
      (decodeKey s.cfg.keymap ((List.range 5).map (deviceByte s)) = none → q = s.queue) ∧
      step s = .next (usedSamples 40
        { s with
          turns := rest, queue := q, pins := Pins.idle,
          trace := s.trace ++ es ++ [.pause .scanPause] })

/-- R162. While a stop request stands, the loop's only step is the halt step: the phase, and no event. -/
def Obligations.StopRequestHaltsTheLoop : Prop :=
  ∀ (rest : List Agent) (s : State),
    s.owner = .none → s.turns = .loop :: rest → loopActive s.phase = true → s.stopReq = true →
    step s = .next { s with turns := rest, phase := .halted }

/-- R155. In Off, Failed and Halted the loop has no step. -/
def Obligations.LoopRestsInOffFailedHalted : Prop :=
  ∀ (rest : List Agent) (s : State),
    s.owner = .none → s.turns = .loop :: rest →
    s.phase = .off ∨ s.phase = .failed ∨ s.phase = .halted →
    step s = .next { s with turns := rest }

/-- R31, R156, R157, R232. Twelve turns of the loop from Startup(0) with no stop request reach Steady with
a blank Grid; the twelve images go out in order, N transactions each, and nothing else; mode,
brightness, text and queue are untouched. -/
def Obligations.StartupAnimationReachesSteady : Prop :=
  ∀ (rest : List Agent) (s : State),
    s.owner = .none → s.turns = List.replicate 12 .loop ++ rest → s.phase = .startup 0 →
    s.stopReq = false →
    ∃ (es : List PinEvent) (d : Bool),
      Carries es
        ((List.range 10).flatMap (fun k => gridTxs s.cfg s.mode
            (renderGrid s.cfg s.mode
              (List.replicate 6 [BitVec.ofNat 8 (0x30 + k), 0x2E#8]).flatten)) ++
          gridTxs s.cfg s.mode (renderGrid s.cfg s.mode s.cfg.banner) ++
          gridTxs s.cfg s.mode (Vector.replicate 7 0x00#8)) ∧
      Sys2Proof.core.run 12 s = .next
        { s with
          turns := rest, phase := .steady, grid := Vector.replicate 7 0x00#8,
          renderN := nGrids s.mode,
          pins := { s.pins with stb := true, clk := true, dio := d },
          trace := s.trace ++ es }

/-! ## Failures and responses -/

/-- R205. Where no engine runs, every request but START fails with ENotRunning and changes nothing (STOP
only in Off: in Failed it succeeds). For the WIRE rows, driven alone, that is the model's choice (log 10). -/
def Obligations.WithoutEngineOnlyStartAndStopSucceed : Prop :=
  (∀ (i : Instr) (s : State), s.phase = .off → (∀ f, i ≠ .start f) →
    exec i s = .next (answered .eNotRunning .none s)) ∧
  (∀ (i : Instr) (s : State), s.phase = .failed → (∀ f, i ≠ .start f) → i ≠ .stop →
    exec i s = .next (answered .eNotRunning .none s)) ∧
  ∀ s : State, s.phase = .failed →
    exec .stop s = .next (answered .ok .none { s with phase := .off })

/-- R210, R12. Every instruction but a STOP under way is answered exactly once; a failing one leaves the
state as it was but for the response, or, for EFatalLines alone, the phase (R203); a failure carries no
value. For the WIRE rows, driven alone, that is the model's choice (log 10). -/
def Obligations.FailuresLeaveTheStateAsItWas : Prop :=
  ∀ (i : Instr) (s : State), (i ≠ .stop ∨ engineRuns s.phase = false) →
    ∃ (st : Status) (v : Value) (t : State), exec i s = .next t ∧
      t.responses = s.responses ++ [⟨s.owner, st, v⟩] ∧
      (st ≠ .ok → v = .none) ∧
      (st = .eFatalLines → t = answered st .none { s with phase := .failed }) ∧
      (st ≠ .ok → st ≠ .eFatalLines → t = answered st .none s)

/-- R83, R201 (cause 4), R209. A request that does not decode is answered with EMalformed in every phase,
before anything else is looked at; the request is used up and nothing else changes. -/
def Obligations.UndecodableRequestIsMalformed : Prop :=
  ∀ (i : Nat) (r : Request) (later : List Agent) (rest : List Request) (e : DecodeError)
    (s : State),
    s.owner = .none → s.turns = .caller i :: later → Owner.caller i ∉ s.stopWait →
    takeRequest i s.pending = some (r, rest) → decode r.channel r.bytes = .error e →
    step s = .next
      { s with
        turns := later, pending := rest,
        responses := s.responses ++ [⟨.caller i, .eMalformed, .none⟩] }

/-! ## Encoding -/

/-- R80, R81, R74, R75. Decoding the encoding of a well-formed instruction gives it back, with every
operand at every value its encoding admits. -/
def Obligations.DecodeOfEncodeIsIdentity : Prop :=
  ∀ i : Instr, i.wf = true → decode i.channel (encode i) = .ok i

/-- R83, R89. What a channel's bytes decode to is well-formed, stands on that channel, and encodes to those
very bytes: no two byte strings are one instruction, and every other byte string is refused. -/
def Obligations.EncodeOfDecodeIsIdentity : Prop :=
  ∀ (ch : Channel) (bs : List Byte) (i : Instr), decode ch bs = .ok i →
    i.wf = true ∧ i.channel = ch ∧ encode i = bs

/-- R80, R81. Words of the spec's tables and vectors decode to the instructions they stand for. -/
def Obligations.SpecWordsDecode : Prop :=
  decode .port [0x01, 0x8A] = .ok (.sendbyte 0x8A) ∧
  decode .port [0x11, 0x04, 0x00, 0x31, 0x32, 0x2E, 0x35] = .ok (.render [0x31, 0x32, 0x2E, 0x35]) ∧
  decode .port [0x12, 0xC2, 0xDB] = .ok (.wrreg 0xC2 0xDB) ∧
  decode .port [0x21, 0x00, 0x10, 0x00, 0x00, 0x00] = .ok (.decodekey [0x00, 0x10, 0x00, 0x00, 0x00]) ∧
  decode .port [0x41, 0xFD, 0xFF, 0xFF, 0xFF] = .ok (.setbrt (-3)) ∧
  decode .port [0x47, 0x09] = .ok (.setmode 9) ∧
  decode .port [0x70, 0x01] = .ok (.start 1) ∧
  decode .port [0x41, 0x0A, 0x00] = .error .tooShort ∧
  decode .port [0x05] = .error (.unknownTag 0x05) ∧
  decode .wire [0x8A] = .ok (.cmdBright 0xA)

/-! ## The step -/

/-- R175, R62 d. When a caller that waits for no STOP has the turn, the step takes its oldest request, and
where the bytes decode to `i`, the step is exec of `i` at that state under the caller's grant, the
grant released after it. -/
def Obligations.StepServesTheDecodedRequest : Prop :=
  ∀ (c : Nat) (r : Request) (later : List Agent) (pre post : List Request) (i : Instr) (s : State),
    s.owner = .none → s.turns = .caller c :: later → Owner.caller c ∉ s.stopWait →
    s.pending = pre ++ r :: post → r.caller = c → (∀ q ∈ pre, q.caller ≠ c) →
    decode r.channel r.bytes = .ok i →
    step s = finishServe (exec i
      { s with turns := later, pending := pre ++ post, owner := .caller c })

/-- The instruction that the table's bits `w` decode to is the one the next step runs when they are placed
with withFetchWord (log 8). -/
def Obligations.FetchWordIsServedNext : Prop :=
  ∀ (nbits w : Nat) (i : Instr) (s : State), decodeTableWord nbits w = some i →
    step (s.withFetchWord nbits w) =
      finishServe (exec i { s with owner := .caller (freshCaller s) })

/-- R211, R64. Every step goes on: no state leads to a fault or a refusal. -/
def Obligations.EveryStepGoesOn : Prop :=
  ∀ s : State, ∃ t : State, step s = .next t

/-- R33. While somebody holds the grant no operation begins: the step changes nothing. -/
def Obligations.HeldGrantLetsNothingBegin : Prop :=
  ∀ s : State, s.owner ≠ .none → step s = .next s

/-! ## Invariants -/

/-- R36, R32. Every step keeps the invariant, from every state that meets it. -/
def Obligations.StepKeepsStateInv : Prop :=
  ∀ s t : State, StateInv s → step s = .next t → StateInv t

/-- R37, R230. At power-on the phase is Off, there is no stop request and no owner, and the invariants
hold. -/
def Obligations.ResetMeetsTheInvariants : Prop :=
  State.reset.phase = .off ∧ State.reset.stopReq = false ∧ State.reset.owner = .none ∧
  StateInv State.reset ∧ TraceWhole State.reset ∧ PinsMirror Pins.idle State.reset

/-- R59, R62 e. No step cuts a transaction: a trace that is whole is whole after every step. -/
def Obligations.StepKeepsTransactionsWhole : Prop :=
  ∀ s t : State, TraceWhole s → step s = .next t → TraceWhole t

/-- R30. The pin registers are written by pin events only: they stay what the trace makes of them. -/
def Obligations.PinRegistersMirrorTheTrace : Prop :=
  ∀ (p : Pins) (s t : State), PinsMirror p s → step s = .next t → PinsMirror p t

/-- R6, R34, R62 b. A step only adds to the trace and to the responses, and writes no parameter. -/
def Obligations.StepOnlyAppendsAndKeepsParameters : Prop :=
  ∀ s t : State, step s = .next t →
    s.trace <+: t.trace ∧ s.responses <+: t.responses ∧ t.cfg = s.cfg

/-- R31. The phase moves only as the table of R31 says. -/
def Obligations.PhaseMovesOnlyByTheTable : Prop :=
  ∀ s t : State, step s = .next t → PhaseMove s.phase t.phase

/-- R21, R22, R24, R25, R23, R26. A request other than the ones the rules name writes none of mode,
brightness, text, the time-mode flag, Grid, the queue; and no step of the loop writes the first four. -/
def Obligations.OnlyNamedOperationsWriteTheSettings : Prop :=
  (∀ (i : Instr) (s t : State), exec i s = .next t → (∀ f, i ≠ .start f) →
    ((∀ sel, i ≠ .setmode sel) → t.mode = s.mode) ∧
    ((∀ v, i ≠ .setbrt v) → t.brightness = s.brightness) ∧
    ((∀ x, i ≠ .settxt x) → t.text = s.text) ∧
    ((∀ f, i ≠ .settm f) → t.timeMode = s.timeMode) ∧
    ((∀ x, i ≠ .settxt x) → (∀ f, i ≠ .settm f) → i ≠ .clrkeys → t.grid = s.grid) ∧
    ((∀ c, i ≠ .pushkey c) → i ≠ .popkey → i ≠ .clrkeys → t.queue = s.queue)) ∧
  ∀ s : State, (loopStep s).mode = s.mode ∧ (loopStep s).brightness = s.brightness ∧
    (loopStep s).text = s.text ∧ (loopStep s).timeMode = s.timeMode

/-! ## Device and display registers -/

/-- R5, R60, R140. What the Device answers reaches no state of the block through a request: two states
that differ only in the Device's answers (and in how many free values were drawn) end in the same
fields, and in the same trace but for the sampled values. -/
def Obligations.DeviceAnswersReachNoStateByRequests : Prop :=
  ∀ (i : Instr) (xs : List Sample) (n : Nat) (s t u : State),
    exec i s = .next t → exec i { s with deviceIn := xs, draws := n } = .next u →
    u.mode = t.mode ∧ u.brightness = t.brightness ∧ u.grid = t.grid ∧ u.text = t.text ∧
    u.timeMode = t.timeMode ∧ u.queue = t.queue ∧ u.pins = t.pins ∧ u.phase = t.phase ∧
    u.stopReq = t.stopReq ∧ u.stopWait = t.stopWait ∧
    u.trace.map blindEvent = t.trace.map blindEvent

/-- R11, R51, R122. Where the trace so far is whole, WRREG leaves its byte in the register at its address
and every other register as it was. -/
def Obligations.WrRegStoresAtItsAddressOnly : Prop :=
  ∀ (a d : Byte) (s : State), TraceWhole s → engineRuns s.phase = true →
    ∃ t : State, exec (.wrreg a d) s = .next t ∧ registerAt t a.toNat = some d ∧
      ∀ x : Nat, x ≠ a.toNat → registerAt t x = registerAt s x

/-- R52, R123, R246. SETTXT leaves grid `i`'s byte in the register at (BASE + 2*i) mod 256 for the N grids,
and every other register as it was. -/
def Obligations.SetTxtStoresAtGridAddressesOnly : Prop :=
  ∀ (text : Str) (s : State), TraceWhole s → engineRuns s.phase = true →
    ∃ t : State, exec (.settxt text) s = .next t ∧
      (∀ i : Fin 7, i.val < nGrids s.mode →
        registerAt t (addressAt s.cfg s.mode (2 * i.val)).toNat =
          some (renderGrid s.cfg s.mode text)[i]) ∧
      ∀ x : Nat, (∀ i : Nat, i < nGrids s.mode → x ≠ (addressAt s.cfg s.mode (2 * i)).toNat) →
        registerAt t x = registerAt s x

/-- R52, R124, R246. WRRAWB leaves byte `j` in the register at (BASE + j) mod 256 for the 14 bytes, and
every other register as it was. -/
def Obligations.WrRawBStoresAtFourteenAddressesOnly : Prop :=
  ∀ (b : List Byte) (s : State), b.length = 14 → TraceWhole s → engineRuns s.phase = true →
    ∃ t : State, exec (.wrrawb b) s = .next t ∧
      (∀ j : Nat, j < 14 →
        registerAt t (addressAt s.cfg s.mode j).toNat = some (b.getD j 0x00#8)) ∧
      ∀ x : Nat, (∀ j : Nat, j < 14 → x ≠ (addressAt s.cfg s.mode j).toNat) →
        registerAt t x = registerAt s x

/-- R50, R246. Only WRREG, WRGRID, WRRAWB, WRRAW, SETTXT, SETTM and CLRKEYS reach the display registers:
any other instruction leaves every one as it was, where the trace so far is whole. -/
def Obligations.OtherRequestsReachNoDisplayRegister : Prop :=
  ∀ (i : Instr) (s t : State), TraceWhole s → exec i s = .next t →
    (∀ a d, i ≠ .wrreg a d) → i ≠ .wrgrid → (∀ b, i ≠ .wrrawb b) → (∀ x, i ≠ .wrraw x) →
    (∀ x, i ≠ .settxt x) → (∀ f, i ≠ .settm f) → i ≠ .clrkeys →
    ∀ x : Nat, registerAt t x = registerAt s x

/-- R51. The image of the display registers is in its canonical form for every trace. -/
def Obligations.DeviceImageIsCanonical : Prop :=
  ∀ es : List PinEvent, Memory.wf (deviceImage es) = true
end

