-- ==== Sys2Proof/Laws/Memory.lean ====
section
/-!
SUPPORT. The canonical form of the display-register image: a write keeps it, a read after a write gives
the byte written, and a write leaves every other address alone.
-/

namespace Sys2Proof.Machine

theorem Memory.wf_cons (c : Host.Cell) (m : Memory) :
    Memory.wf (c :: m) = true ↔ (∀ d ∈ m.head?, c.1 < d.1) ∧ Memory.wf m = true := by
  cases m with
  | nil => simp [Memory.wf]
  | cons d m => simp [Memory.wf]

theorem Memory.head_write (m : Memory) (a : Nat) (b : Byte) (x : Nat) (h : x < a)
    (hm : ∀ d ∈ m.head?, x < d.1) : ∀ d ∈ (Memory.write m a b).head?, x < d.1 := by
  cases m with
  | nil => simpa [Memory.write] using h
  | cons c m =>
    obtain ⟨y, e⟩ := c
    simp only [List.head?_cons, Option.mem_def, Option.some.injEq, forall_eq'] at hm
    unfold Memory.write
    split
    · simpa using h
    · split
      · simpa using h
      · simpa using hm

/-- A write keeps the canonical form. -/
theorem Memory.wf_write (m : Memory) (a : Nat) (b : Byte) (h : Memory.wf m = true) :
    Memory.wf (Memory.write m a b) = true := by
  induction m with
  | nil => rfl
  | cons c m ih =>
    obtain ⟨x, e⟩ := c
    rw [Memory.wf_cons] at h
    unfold Memory.write
    split
    · next hlt =>
      rw [Memory.wf_cons]
      exact ⟨by simpa using hlt, by rw [Memory.wf_cons]; exact h⟩
    · split
      · next hne heq =>
        subst heq
        rw [Memory.wf_cons]
        exact h
      · next h1 h2 =>
        rw [Memory.wf_cons]
        exact ⟨Memory.head_write m a b x (by omega) h.1, ih h.2⟩

/-- A read after a write to the same address gives the byte written. -/
theorem Memory.read_write_same (m : Memory) (a : Nat) (b : Byte) :
    Memory.read (Memory.write m a b) a = some b := by
  induction m with
  | nil => simp [Memory.write, Memory.read]
  | cons c m ih =>
    obtain ⟨x, e⟩ := c
    unfold Memory.write
    split
    · simp [Memory.read]
    · split
      · simp [Memory.read]
      · next h1 h2 => simp [Memory.read, h2, ih]

/-- A write leaves every other address alone. -/
theorem Memory.read_write_other (m : Memory) (a x : Nat) (b : Byte) (h : x ≠ a) :
    Memory.read (Memory.write m a b) x = Memory.read m x := by
  induction m with
  | nil => simp [Memory.write, Memory.read, h]
  | cons c m ih =>
    obtain ⟨y, e⟩ := c
    unfold Memory.write
    split
    · simp [Memory.read, h]
    · split
      · next h1 h2 => subst h2; simp [Memory.read, h]
      · simp [Memory.read, ih]

/-- The image after a transaction keeps the canonical form. -/
theorem imageAfter_wf (m : Memory) (t : Transaction) (h : Memory.wf m = true) :
    Memory.wf (imageAfter m t) = true := by
  unfold imageAfter
  split
  · exact Memory.wf_write _ _ _ h
  · exact h

end Sys2Proof.Machine
end

