-- ==== Sys2Proof/Laws/State.lean ====
section
/-!
SUPPORT. One lemma for each field and each update of the state, true by definition, so that no later
proof unfolds a record update.
-/

namespace Sys2Proof.Machine

/-! ## emit -/

@[simp] theorem emit_mode (es : List PinEvent) (s : State) :
    (emit es s).mode = s.mode := rfl
@[simp] theorem emit_brightness (es : List PinEvent) (s : State) :
    (emit es s).brightness = s.brightness := rfl
@[simp] theorem emit_grid (es : List PinEvent) (s : State) :
    (emit es s).grid = s.grid := rfl
@[simp] theorem emit_text (es : List PinEvent) (s : State) :
    (emit es s).text = s.text := rfl
@[simp] theorem emit_timeMode (es : List PinEvent) (s : State) :
    (emit es s).timeMode = s.timeMode := rfl
@[simp] theorem emit_queue (es : List PinEvent) (s : State) :
    (emit es s).queue = s.queue := rfl
@[simp] theorem emit_pins (es : List PinEvent) (s : State) :
    (emit es s).pins = pinsAfter s.pins es := rfl
@[simp] theorem emit_phase (es : List PinEvent) (s : State) :
    (emit es s).phase = s.phase := rfl
@[simp] theorem emit_stopReq (es : List PinEvent) (s : State) :
    (emit es s).stopReq = s.stopReq := rfl
@[simp] theorem emit_owner (es : List PinEvent) (s : State) :
    (emit es s).owner = s.owner := rfl
@[simp] theorem emit_cfg (es : List PinEvent) (s : State) :
    (emit es s).cfg = s.cfg := rfl
@[simp] theorem emit_pending (es : List PinEvent) (s : State) :
    (emit es s).pending = s.pending := rfl
@[simp] theorem emit_stopWait (es : List PinEvent) (s : State) :
    (emit es s).stopWait = s.stopWait := rfl
@[simp] theorem emit_turns (es : List PinEvent) (s : State) :
    (emit es s).turns = s.turns := rfl
@[simp] theorem emit_deviceIn (es : List PinEvent) (s : State) :
    (emit es s).deviceIn = s.deviceIn := rfl
@[simp] theorem emit_clockIn (es : List PinEvent) (s : State) :
    (emit es s).clockIn = s.clockIn := rfl
@[simp] theorem emit_draws (es : List PinEvent) (s : State) :
    (emit es s).draws = s.draws := rfl
@[simp] theorem emit_renderN (es : List PinEvent) (s : State) :
    (emit es s).renderN = s.renderN := rfl
@[simp] theorem emit_trace (es : List PinEvent) (s : State) :
    (emit es s).trace = s.trace ++ es := rfl
@[simp] theorem emit_responses (es : List PinEvent) (s : State) :
    (emit es s).responses = s.responses := rfl

/-! ## respond -/

@[simp] theorem respond_mode (st : Status) (v : Value) (s : State) :
    (respond st v s).mode = s.mode := rfl
@[simp] theorem respond_brightness (st : Status) (v : Value) (s : State) :
    (respond st v s).brightness = s.brightness := rfl
@[simp] theorem respond_grid (st : Status) (v : Value) (s : State) :
    (respond st v s).grid = s.grid := rfl
@[simp] theorem respond_text (st : Status) (v : Value) (s : State) :
    (respond st v s).text = s.text := rfl
@[simp] theorem respond_timeMode (st : Status) (v : Value) (s : State) :
    (respond st v s).timeMode = s.timeMode := rfl
@[simp] theorem respond_queue (st : Status) (v : Value) (s : State) :
    (respond st v s).queue = s.queue := rfl
@[simp] theorem respond_pins (st : Status) (v : Value) (s : State) :
    (respond st v s).pins = s.pins := rfl
@[simp] theorem respond_phase (st : Status) (v : Value) (s : State) :
    (respond st v s).phase = s.phase := rfl
@[simp] theorem respond_stopReq (st : Status) (v : Value) (s : State) :
    (respond st v s).stopReq = s.stopReq := rfl
@[simp] theorem respond_owner (st : Status) (v : Value) (s : State) :
    (respond st v s).owner = s.owner := rfl
@[simp] theorem respond_cfg (st : Status) (v : Value) (s : State) :
    (respond st v s).cfg = s.cfg := rfl
@[simp] theorem respond_pending (st : Status) (v : Value) (s : State) :
    (respond st v s).pending = s.pending := rfl
@[simp] theorem respond_stopWait (st : Status) (v : Value) (s : State) :
    (respond st v s).stopWait = s.stopWait := rfl
@[simp] theorem respond_turns (st : Status) (v : Value) (s : State) :
    (respond st v s).turns = s.turns := rfl
@[simp] theorem respond_deviceIn (st : Status) (v : Value) (s : State) :
    (respond st v s).deviceIn = s.deviceIn := rfl
@[simp] theorem respond_clockIn (st : Status) (v : Value) (s : State) :
    (respond st v s).clockIn = s.clockIn := rfl
@[simp] theorem respond_draws (st : Status) (v : Value) (s : State) :
    (respond st v s).draws = s.draws := rfl
@[simp] theorem respond_renderN (st : Status) (v : Value) (s : State) :
    (respond st v s).renderN = s.renderN := rfl
@[simp] theorem respond_trace (st : Status) (v : Value) (s : State) :
    (respond st v s).trace = s.trace := rfl
@[simp] theorem respond_responses (st : Status) (v : Value) (s : State) :
    (respond st v s).responses = s.responses ++ [⟨s.owner, st, v⟩] := rfl

/-! ## fail -/

@[simp] theorem fail_mode (st : Status) (s : State) :
    (fail st s).mode = s.mode := rfl
@[simp] theorem fail_brightness (st : Status) (s : State) :
    (fail st s).brightness = s.brightness := rfl
@[simp] theorem fail_grid (st : Status) (s : State) :
    (fail st s).grid = s.grid := rfl
@[simp] theorem fail_text (st : Status) (s : State) :
    (fail st s).text = s.text := rfl
@[simp] theorem fail_timeMode (st : Status) (s : State) :
    (fail st s).timeMode = s.timeMode := rfl
@[simp] theorem fail_queue (st : Status) (s : State) :
    (fail st s).queue = s.queue := rfl
@[simp] theorem fail_pins (st : Status) (s : State) :
    (fail st s).pins = s.pins := rfl
@[simp] theorem fail_phase (st : Status) (s : State) :
    (fail st s).phase = s.phase := rfl
@[simp] theorem fail_stopReq (st : Status) (s : State) :
    (fail st s).stopReq = s.stopReq := rfl
@[simp] theorem fail_owner (st : Status) (s : State) :
    (fail st s).owner = s.owner := rfl
@[simp] theorem fail_cfg (st : Status) (s : State) :
    (fail st s).cfg = s.cfg := rfl
@[simp] theorem fail_pending (st : Status) (s : State) :
    (fail st s).pending = s.pending := rfl
@[simp] theorem fail_stopWait (st : Status) (s : State) :
    (fail st s).stopWait = s.stopWait := rfl
@[simp] theorem fail_turns (st : Status) (s : State) :
    (fail st s).turns = s.turns := rfl
@[simp] theorem fail_deviceIn (st : Status) (s : State) :
    (fail st s).deviceIn = s.deviceIn := rfl
@[simp] theorem fail_clockIn (st : Status) (s : State) :
    (fail st s).clockIn = s.clockIn := rfl
@[simp] theorem fail_draws (st : Status) (s : State) :
    (fail st s).draws = s.draws := rfl
@[simp] theorem fail_renderN (st : Status) (s : State) :
    (fail st s).renderN = s.renderN := rfl
@[simp] theorem fail_trace (st : Status) (s : State) :
    (fail st s).trace = s.trace := rfl
@[simp] theorem fail_responses (st : Status) (s : State) :
    (fail st s).responses = s.responses ++ [⟨s.owner, st, .none⟩] := rfl

/-! ## respondOk -/

@[simp] theorem respondOk_mode (v : Value) (s : State) :
    (respondOk v s).mode = s.mode := rfl
@[simp] theorem respondOk_brightness (v : Value) (s : State) :
    (respondOk v s).brightness = s.brightness := rfl
@[simp] theorem respondOk_grid (v : Value) (s : State) :
    (respondOk v s).grid = s.grid := rfl
@[simp] theorem respondOk_text (v : Value) (s : State) :
    (respondOk v s).text = s.text := rfl
@[simp] theorem respondOk_timeMode (v : Value) (s : State) :
    (respondOk v s).timeMode = s.timeMode := rfl
@[simp] theorem respondOk_queue (v : Value) (s : State) :
    (respondOk v s).queue = s.queue := rfl
@[simp] theorem respondOk_pins (v : Value) (s : State) :
    (respondOk v s).pins = s.pins := rfl
@[simp] theorem respondOk_phase (v : Value) (s : State) :
    (respondOk v s).phase = s.phase := rfl
@[simp] theorem respondOk_stopReq (v : Value) (s : State) :
    (respondOk v s).stopReq = s.stopReq := rfl
@[simp] theorem respondOk_owner (v : Value) (s : State) :
    (respondOk v s).owner = s.owner := rfl
@[simp] theorem respondOk_cfg (v : Value) (s : State) :
    (respondOk v s).cfg = s.cfg := rfl
@[simp] theorem respondOk_pending (v : Value) (s : State) :
    (respondOk v s).pending = s.pending := rfl
@[simp] theorem respondOk_stopWait (v : Value) (s : State) :
    (respondOk v s).stopWait = s.stopWait := rfl
@[simp] theorem respondOk_turns (v : Value) (s : State) :
    (respondOk v s).turns = s.turns := rfl
@[simp] theorem respondOk_deviceIn (v : Value) (s : State) :
    (respondOk v s).deviceIn = s.deviceIn := rfl
@[simp] theorem respondOk_clockIn (v : Value) (s : State) :
    (respondOk v s).clockIn = s.clockIn := rfl
@[simp] theorem respondOk_draws (v : Value) (s : State) :
    (respondOk v s).draws = s.draws := rfl
@[simp] theorem respondOk_renderN (v : Value) (s : State) :
    (respondOk v s).renderN = s.renderN := rfl
@[simp] theorem respondOk_trace (v : Value) (s : State) :
    (respondOk v s).trace = s.trace := rfl
@[simp] theorem respondOk_responses (v : Value) (s : State) :
    (respondOk v s).responses = s.responses ++ [⟨s.owner, .ok, v⟩] := rfl

/-! ## takeGrant -/

@[simp] theorem takeGrant_mode (o : Owner) (s : State) :
    (takeGrant o s).mode = s.mode := rfl
@[simp] theorem takeGrant_brightness (o : Owner) (s : State) :
    (takeGrant o s).brightness = s.brightness := rfl
@[simp] theorem takeGrant_grid (o : Owner) (s : State) :
    (takeGrant o s).grid = s.grid := rfl
@[simp] theorem takeGrant_text (o : Owner) (s : State) :
    (takeGrant o s).text = s.text := rfl
@[simp] theorem takeGrant_timeMode (o : Owner) (s : State) :
    (takeGrant o s).timeMode = s.timeMode := rfl
@[simp] theorem takeGrant_queue (o : Owner) (s : State) :
    (takeGrant o s).queue = s.queue := rfl
@[simp] theorem takeGrant_pins (o : Owner) (s : State) :
    (takeGrant o s).pins = s.pins := rfl
@[simp] theorem takeGrant_phase (o : Owner) (s : State) :
    (takeGrant o s).phase = s.phase := rfl
@[simp] theorem takeGrant_stopReq (o : Owner) (s : State) :
    (takeGrant o s).stopReq = s.stopReq := rfl
@[simp] theorem takeGrant_owner (o : Owner) (s : State) :
    (takeGrant o s).owner = o := rfl
@[simp] theorem takeGrant_cfg (o : Owner) (s : State) :
    (takeGrant o s).cfg = s.cfg := rfl
@[simp] theorem takeGrant_pending (o : Owner) (s : State) :
    (takeGrant o s).pending = s.pending := rfl
@[simp] theorem takeGrant_stopWait (o : Owner) (s : State) :
    (takeGrant o s).stopWait = s.stopWait := rfl
@[simp] theorem takeGrant_turns (o : Owner) (s : State) :
    (takeGrant o s).turns = s.turns := rfl
@[simp] theorem takeGrant_deviceIn (o : Owner) (s : State) :
    (takeGrant o s).deviceIn = s.deviceIn := rfl
@[simp] theorem takeGrant_clockIn (o : Owner) (s : State) :
    (takeGrant o s).clockIn = s.clockIn := rfl
@[simp] theorem takeGrant_draws (o : Owner) (s : State) :
    (takeGrant o s).draws = s.draws := rfl
@[simp] theorem takeGrant_renderN (o : Owner) (s : State) :
    (takeGrant o s).renderN = s.renderN := rfl
@[simp] theorem takeGrant_trace (o : Owner) (s : State) :
    (takeGrant o s).trace = s.trace := rfl
@[simp] theorem takeGrant_responses (o : Owner) (s : State) :
    (takeGrant o s).responses = s.responses := rfl

/-! ## release -/

@[simp] theorem release_mode (s : State) :
    (release s).mode = s.mode := rfl
@[simp] theorem release_brightness (s : State) :
    (release s).brightness = s.brightness := rfl
@[simp] theorem release_grid (s : State) :
    (release s).grid = s.grid := rfl
@[simp] theorem release_text (s : State) :
    (release s).text = s.text := rfl
@[simp] theorem release_timeMode (s : State) :
    (release s).timeMode = s.timeMode := rfl
@[simp] theorem release_queue (s : State) :
    (release s).queue = s.queue := rfl
@[simp] theorem release_pins (s : State) :
    (release s).pins = s.pins := rfl
@[simp] theorem release_phase (s : State) :
    (release s).phase = s.phase := rfl
@[simp] theorem release_stopReq (s : State) :
    (release s).stopReq = s.stopReq := rfl
@[simp] theorem release_owner (s : State) :
    (release s).owner = .none := rfl
@[simp] theorem release_cfg (s : State) :
    (release s).cfg = s.cfg := rfl
@[simp] theorem release_pending (s : State) :
    (release s).pending = s.pending := rfl
@[simp] theorem release_stopWait (s : State) :
    (release s).stopWait = s.stopWait := rfl
@[simp] theorem release_turns (s : State) :
    (release s).turns = s.turns := rfl
@[simp] theorem release_deviceIn (s : State) :
    (release s).deviceIn = s.deviceIn := rfl
@[simp] theorem release_clockIn (s : State) :
    (release s).clockIn = s.clockIn := rfl
@[simp] theorem release_draws (s : State) :
    (release s).draws = s.draws := rfl
@[simp] theorem release_renderN (s : State) :
    (release s).renderN = s.renderN := rfl
@[simp] theorem release_trace (s : State) :
    (release s).trace = s.trace := rfl
@[simp] theorem release_responses (s : State) :
    (release s).responses = s.responses := rfl

/-! ## setGrid -/

@[simp] theorem setGrid_mode (g : Vector Byte 7) (s : State) :
    (setGrid g s).mode = s.mode := rfl
@[simp] theorem setGrid_brightness (g : Vector Byte 7) (s : State) :
    (setGrid g s).brightness = s.brightness := rfl
@[simp] theorem setGrid_grid (g : Vector Byte 7) (s : State) :
    (setGrid g s).grid = g := rfl
@[simp] theorem setGrid_text (g : Vector Byte 7) (s : State) :
    (setGrid g s).text = s.text := rfl
@[simp] theorem setGrid_timeMode (g : Vector Byte 7) (s : State) :
    (setGrid g s).timeMode = s.timeMode := rfl
@[simp] theorem setGrid_queue (g : Vector Byte 7) (s : State) :
    (setGrid g s).queue = s.queue := rfl
@[simp] theorem setGrid_pins (g : Vector Byte 7) (s : State) :
    (setGrid g s).pins = s.pins := rfl
@[simp] theorem setGrid_phase (g : Vector Byte 7) (s : State) :
    (setGrid g s).phase = s.phase := rfl
@[simp] theorem setGrid_stopReq (g : Vector Byte 7) (s : State) :
    (setGrid g s).stopReq = s.stopReq := rfl
@[simp] theorem setGrid_owner (g : Vector Byte 7) (s : State) :
    (setGrid g s).owner = s.owner := rfl
@[simp] theorem setGrid_cfg (g : Vector Byte 7) (s : State) :
    (setGrid g s).cfg = s.cfg := rfl
@[simp] theorem setGrid_pending (g : Vector Byte 7) (s : State) :
    (setGrid g s).pending = s.pending := rfl
@[simp] theorem setGrid_stopWait (g : Vector Byte 7) (s : State) :
    (setGrid g s).stopWait = s.stopWait := rfl
@[simp] theorem setGrid_turns (g : Vector Byte 7) (s : State) :
    (setGrid g s).turns = s.turns := rfl
@[simp] theorem setGrid_deviceIn (g : Vector Byte 7) (s : State) :
    (setGrid g s).deviceIn = s.deviceIn := rfl
@[simp] theorem setGrid_clockIn (g : Vector Byte 7) (s : State) :
    (setGrid g s).clockIn = s.clockIn := rfl
@[simp] theorem setGrid_draws (g : Vector Byte 7) (s : State) :
    (setGrid g s).draws = s.draws := rfl
@[simp] theorem setGrid_renderN (g : Vector Byte 7) (s : State) :
    (setGrid g s).renderN = nGrids s.mode := rfl
@[simp] theorem setGrid_trace (g : Vector Byte 7) (s : State) :
    (setGrid g s).trace = s.trace := rfl
@[simp] theorem setGrid_responses (g : Vector Byte 7) (s : State) :
    (setGrid g s).responses = s.responses := rfl

/-! ## pushKey -/

@[simp] theorem pushKey_mode (c : Chr) (s : State) :
    (pushKey c s).mode = s.mode := rfl
@[simp] theorem pushKey_brightness (c : Chr) (s : State) :
    (pushKey c s).brightness = s.brightness := rfl
@[simp] theorem pushKey_grid (c : Chr) (s : State) :
    (pushKey c s).grid = s.grid := rfl
@[simp] theorem pushKey_text (c : Chr) (s : State) :
    (pushKey c s).text = s.text := rfl
@[simp] theorem pushKey_timeMode (c : Chr) (s : State) :
    (pushKey c s).timeMode = s.timeMode := rfl
@[simp] theorem pushKey_queue (c : Chr) (s : State) :
    (pushKey c s).queue = pushQueue s.cfg c s.queue := rfl
@[simp] theorem pushKey_pins (c : Chr) (s : State) :
    (pushKey c s).pins = s.pins := rfl
@[simp] theorem pushKey_phase (c : Chr) (s : State) :
    (pushKey c s).phase = s.phase := rfl
@[simp] theorem pushKey_stopReq (c : Chr) (s : State) :
    (pushKey c s).stopReq = s.stopReq := rfl
@[simp] theorem pushKey_owner (c : Chr) (s : State) :
    (pushKey c s).owner = s.owner := rfl
@[simp] theorem pushKey_cfg (c : Chr) (s : State) :
    (pushKey c s).cfg = s.cfg := rfl
@[simp] theorem pushKey_pending (c : Chr) (s : State) :
    (pushKey c s).pending = s.pending := rfl
@[simp] theorem pushKey_stopWait (c : Chr) (s : State) :
    (pushKey c s).stopWait = s.stopWait := rfl
@[simp] theorem pushKey_turns (c : Chr) (s : State) :
    (pushKey c s).turns = s.turns := rfl
@[simp] theorem pushKey_deviceIn (c : Chr) (s : State) :
    (pushKey c s).deviceIn = s.deviceIn := rfl
@[simp] theorem pushKey_clockIn (c : Chr) (s : State) :
    (pushKey c s).clockIn = s.clockIn := rfl
@[simp] theorem pushKey_draws (c : Chr) (s : State) :
    (pushKey c s).draws = s.draws := rfl
@[simp] theorem pushKey_renderN (c : Chr) (s : State) :
    (pushKey c s).renderN = s.renderN := rfl
@[simp] theorem pushKey_trace (c : Chr) (s : State) :
    (pushKey c s).trace = s.trace := rfl
@[simp] theorem pushKey_responses (c : Chr) (s : State) :
    (pushKey c s).responses = s.responses := rfl

end Sys2Proof.Machine
end

