-- ==== Sys2Proof/Laws/Ops.lean ====
section
/-!
SUPPORT. For each shared operation, what it can do, said once: the pin registers and the length of every
list of events, the oracles as streams, the envelope, the grant.
-/

namespace Sys2Proof.Machine

open Sys2Proof.Safety

/-! ## Emitting -/

theorem emit_nil (s : State) : emit [] s = s := by
  simp [emit, pinsAfter]

theorem emit_emit (a b : List PinEvent) (s : State) : emit b (emit a s) = emit (a ++ b) s := by
  simp [emit, pinsAfter]

theorem pinsAfter_append (p : Pins) (a b : List PinEvent) :
    pinsAfter p (a ++ b) = pinsAfter (pinsAfter p a) b := by
  simp [pinsAfter]

@[simp] theorem pinsAfter_byteEvents (p : Pins) (b : Byte) :
    pinsAfter p (byteEvents b) = { p with clk := true, dio := b.getLsbD 7 } := by
  simp [byteEvents, byteBits, writeCell, pinsAfter, pinsApply]

@[simp] theorem pinsAfter_cmdEvents (p : Pins) (c : Byte) :
    pinsAfter p (cmdEvents c) = { p with stb := true, clk := true, dio := c.getLsbD 7 } := by
  simp only [cmdEvents, pinsAfter_append, pinsAfter_byteEvents]
  simp [pinsAfter, pinsApply]

@[simp] theorem pinsAfter_wrEvents (p : Pins) (a d : Byte) :
    pinsAfter p (wrEvents a d) = { p with stb := true, clk := true, dio := d.getLsbD 7 } := by
  simp only [wrEvents, pinsAfter_append, pinsAfter_byteEvents]
  simp [pinsAfter, pinsApply]

theorem pinsAfter_readEvents (p : Pins) (xs : List Sample) (h : p.clk = true) :
    pinsAfter p (readEvents xs) = p := by
  induction xs with
  | nil => simp [readEvents, pinsAfter]
  | cons x xs ih =>
    have hc : pinsAfter p (readCell x) = p := by
      cases p
      simp_all [readCell, pinsAfter, pinsApply]
    have hs : readEvents (x :: xs) = readCell x ++ readEvents xs := by simp [readEvents]
    rw [hs, pinsAfter_append, hc, ih]

@[simp] theorem pinsAfter_idleEvents (p : Pins) : pinsAfter p idleEvents = Pins.idle := rfl

@[simp] theorem pinsAfter_initEvents (p : Pins) (cfg : Params) (m : Mode) (b : Fin 16) :
    pinsAfter p (initEvents cfg m b) =
      { p with stb := true, clk := true, dio := (brightCommand cfg b).getLsbD 7 } := by
  simp [initEvents, pinsAfter_append]

@[simp] theorem length_byteEvents (b : Byte) : (byteEvents b).length = 48 := rfl

@[simp] theorem length_cmdEvents (c : Byte) : (cmdEvents c).length = 53 := rfl

@[simp] theorem length_wrEvents (a d : Byte) : (wrEvents a d).length = 101 := rfl

theorem length_readEvents (xs : List Sample) : (readEvents xs).length = 5 * xs.length := by
  induction xs with
  | nil => rfl
  | cons x xs ih =>
    have hs : readEvents (x :: xs) = readCell x ++ readEvents xs := by simp [readEvents]
    rw [hs, List.length_append, ih]
    simp [readCell]
    omega

/-! ## Bits and bytes -/

theorem byteOfBits_byteBits (b : Byte) : byteOfBits (byteBits b) = b := by
  revert b; decide

theorem bytesOfBits_byteBits (b : Byte) (l : List Bool) :
    bytesOfBits (byteBits b ++ l) = b :: bytesOfBits l := by
  conv_rhs => rw [← byteOfBits_byteBits b]
  rfl

/-- The byte made of eight bits has exactly those bits. -/
theorem byteBits_byteOfBits (b0 b1 b2 b3 b4 b5 b6 b7 : Bool) :
    byteBits (byteOfBits [b0, b1, b2, b3, b4, b5, b6, b7]) = [b0, b1, b2, b3, b4, b5, b6, b7] := by
  revert b0 b1 b2 b3 b4 b5 b6 b7; decide

/-! ## The oracles -/

theorem takeSample_eq (s : State) : takeSample s = (deviceStream s 0, usedSamples 1 s) := by
  unfold takeSample deviceStream usedSamples
  cases h : s.deviceIn <;> simp

theorem deviceStream_used (m n : Nat) (s : State) :
    deviceStream (usedSamples m s) n = deviceStream s (m + n) := by
  unfold deviceStream usedSamples
  simp only [List.getElem?_drop, List.length_drop]
  cases h : s.deviceIn[m + n]? with
  | some x => simp
  | none =>
    have hl := List.getElem?_eq_none_iff.mp h
    have e : s.draws + (m - s.deviceIn.length) + (n - (s.deviceIn.length - m)) =
        s.draws + (m + n - s.deviceIn.length) := by omega
    simp only [e]

theorem usedSamples_used (m n : Nat) (s : State) :
    usedSamples n (usedSamples m s) = usedSamples (m + n) s := by
  have h : s.draws + (m - s.deviceIn.length) + (n - (s.deviceIn.length - m)) =
      s.draws + (m + n - s.deviceIn.length) := by omega
  simp [usedSamples, h]

theorem usedSamples_zero (s : State) : usedSamples 0 s = s := by
  simp [usedSamples]

/-- `n` samples are the next `n` answers of the Device. -/
theorem takeSamples_eq (n : Nat) (s : State) :
    takeSamples n s = ((List.range n).map (deviceStream s), usedSamples n s) := by
  induction n generalizing s with
  | zero => simp [takeSamples, usedSamples_zero]
  | succ n ih =>
    simp only [takeSamples, takeSample_eq, ih, usedSamples_used, List.range_succ_eq_map,
      List.map_cons, List.map_map, Nat.add_comm 1 n]
    congr 2
    refine List.map_congr_left fun i _ => ?_
    simp [deviceStream_used, Nat.add_comm]

theorem takeClock_eq (s : State) : takeClock s = (clockStream s, usedClock s) := by
  unfold takeClock clockStream usedClock
  cases s.clockIn <;> rfl

theorem emit_usedSamples (es : List PinEvent) (n : Nat) (s : State) :
    emit es (usedSamples n s) = usedSamples n (emit es s) := rfl

theorem deviceStream_emit (es : List PinEvent) (s : State) (n : Nat) :
    deviceStream (emit es s) n = deviceStream s n := rfl

theorem deviceByte_used (m j : Nat) (s : State) :
    deviceByte (usedSamples (8 * m) s) j = deviceByte s (m + j) := by
  simp [deviceByte, deviceStream_used, Nat.mul_add, Nat.add_assoc]

theorem deviceByte_emit (es : List PinEvent) (s : State) (j : Nat) :
    deviceByte (emit es s) j = deviceByte s j := rfl

theorem sampleBit_eq (x : Sample) : sampleBit x = decide (x = .one) := by
  cases x <;> rfl

theorem deviceByte_bit (s : State) (j i : Nat) (h : i < 8) :
    (deviceByte s j).getLsbD i = sampleBit (deviceStream s (8 * j + i)) := by
  simp [deviceByte, h, sampleBit_eq]

theorem byteBits_deviceByte (s : State) (j : Nat) :
    byteBits (deviceByte s j) =
      (List.range 8).map fun i => sampleBit (deviceStream s (8 * j + i)) := by
  simp only [byteBits, List.range_succ, List.range_zero, List.nil_append, List.map_cons,
    List.map_nil, List.cons_append]
  simp only [deviceByte_bit s j _ (by decide : 0 < 8), deviceByte_bit s j _ (by decide : 1 < 8),
    deviceByte_bit s j _ (by decide : 2 < 8), deviceByte_bit s j _ (by decide : 3 < 8),
    deviceByte_bit s j _ (by decide : 4 < 8), deviceByte_bit s j _ (by decide : 5 < 8),
    deviceByte_bit s j _ (by decide : 6 < 8), deviceByte_bit s j _ (by decide : 7 < 8)]

/-- Eight samples make the byte whose bit `i` is the `i`-th sample. -/
theorem byteOfBits_samples (s : State) :
    byteOfBits (((List.range 8).map (deviceStream s)).map sampleBit) = deviceByte s 0 := by
  rw [← byteOfBits_byteBits (deviceByte s 0), byteBits_deviceByte, List.map_map]
  simp [Function.comp_def]

/-! ## READBYTE and SCANKEYS -/

/-- The events of `n` read bytes: `8*n` read cells of the Device's next answers. -/
def readByteEvents (n : Nat) (s : State) : List PinEvent :=
  readEvents ((List.range (8 * n)).map (deviceStream s))

theorem readByte_eq (s : State) :
    readByte s = (deviceByte s 0, usedSamples 8 (emit (readByteEvents 1 s) s)) := by
  simp only [readByte, takeSamples_eq, byteOfBits_samples, emit_usedSamples, readByteEvents]

theorem readEvents_append (a b : List Sample) : readEvents (a ++ b) = readEvents a ++ readEvents b := by
  simp [readEvents]

theorem readByteEvents_succ (n : Nat) (s : State) :
    readByteEvents (n + 1) s = readByteEvents 1 s ++ readByteEvents n (usedSamples 8 s) := by
  simp only [readByteEvents, ← readEvents_append]
  congr 1
  have h : 8 * (n + 1) = 8 * 1 + 8 * n := by omega
  rw [h, List.range_add, List.map_append, List.map_map]
  congr 1
  refine List.map_congr_left fun i _ => ?_
  simp [deviceStream_used]

theorem readByteEvents_emit (n m : Nat) (es : List PinEvent) (s : State) :
    readByteEvents n (usedSamples m (emit es s)) = readByteEvents n (usedSamples m s) := rfl

/-- READBYTE `n` times. -/
theorem readBytes_eq (n : Nat) (s : State) :
    readBytes n s =
      ((List.range n).map (deviceByte s), usedSamples (8 * n) (emit (readByteEvents n s) s)) := by
  induction n generalizing s with
  | zero => simp [readBytes, readByteEvents, readEvents, emit_nil, usedSamples_zero]
  | succ n ih =>
    rw [readBytes, readByte_eq]
    simp only [ih]
    rw [emit_usedSamples, usedSamples_used, emit_emit, readByteEvents_emit, ← readByteEvents_succ,
      List.range_succ_eq_map, List.map_cons, List.map_map]
    have hb : ∀ i, deviceByte (usedSamples 8 (emit (readByteEvents 1 s) s)) i =
        deviceByte s (i + 1) := by
      intro i
      have h := deviceByte_used 1 i (emit (readByteEvents 1 s) s)
      rw [Nat.mul_one, deviceByte_emit] at h
      rw [h, Nat.add_comm]
    rw [List.map_congr_left fun i _ => hb i]
    rw [show 8 + 8 * n = 8 * (n + 1) by omega]
    rfl

/-- The events of SCANKEYS (R73, R140). -/
def scanEvents (s : State) : List PinEvent :=
  rdOpenEvents s.cfg.cmdReadKeys ++ readByteEvents 5 s ++ rdCloseEvents

/-- SCANKEYS: the Device's next five bytes, its 256 events, and nothing else. -/
theorem scanKeys_eq (s : State) :
    scanKeys s = ((List.range 5).map (deviceByte s), usedSamples 40 (emit (scanEvents s) s)) := by
  have hr : ∀ es : List PinEvent, readByteEvents 5 (emit es s) = readByteEvents 5 s := fun _ => rfl
  have hd : ∀ es : List PinEvent, deviceByte (emit es s) = deviceByte s := fun _ => rfl
  rw [scanKeys, readBytes_eq]
  simp only [hr, hd]
  rw [emit_usedSamples, emit_emit, emit_emit, scanEvents, List.append_assoc]

theorem length_scanEvents (s : State) : (scanEvents s).length = 256 := by
  simp [scanEvents, rdOpenEvents, rdCloseEvents, readByteEvents, length_readEvents]

theorem pinsAfter_scanEvents (p : Pins) (s : State) : pinsAfter p (scanEvents s) = Pins.idle := by
  simp only [scanEvents, rdOpenEvents, pinsAfter_append, readByteEvents, pinsAfter_byteEvents]
  rw [pinsAfter_readEvents _ _ rfl]
  simp [pinsAfter, pinsApply, rdCloseEvents, Pins.idle]

/-! ## The display -/

/-- Any number of WR transactions leaves the lines at rest; DATA keeps bit 7 of the last byte. -/
theorem pinsAfter_wrList (p : Pins) (l : List Nat) (f g : Nat → Byte) (n : Nat) :
    pinsAfter p ((l ++ [n]).flatMap fun i => wrEvents (f i) (g i)) =
      { p with stb := true, clk := true, dio := (g n).getLsbD 7 } := by
  induction l generalizing p with
  | nil => simp
  | cons i l ih =>
    rw [List.cons_append, List.flatMap_cons, pinsAfter_append, ih, pinsAfter_wrEvents]

theorem length_wrList (l : List Nat) (f g : Nat → Byte) :
    (l.flatMap fun i => wrEvents (f i) (g i)).length = 101 * l.length := by
  induction l with
  | nil => rfl
  | cons i l ih => simp [ih]; omega

theorem pinsAfter_gridEvents (p : Pins) (cfg : Params) (m : Mode) (g : Vector Byte 7) :
    pinsAfter p (gridEvents cfg m g) =
      { p with stb := true, clk := true, dio := (gridByte g (nGrids m - 1)).getLsbD 7 } := by
  have h : List.range (nGrids m) = List.range (nGrids m - 1) ++ [nGrids m - 1] := by
    cases m <;> rfl
  rw [gridEvents, h, pinsAfter_wrList]

theorem length_gridEvents (cfg : Params) (m : Mode) (g : Vector Byte 7) :
    (gridEvents cfg m g).length = 101 * nGrids m := by
  rw [gridEvents, length_wrList, List.length_range]

theorem pinsAfter_rawEvents (p : Pins) (cfg : Params) (m : Mode) (b : List Byte) :
    pinsAfter p (rawEvents cfg m b) =
      { p with stb := true, clk := true, dio := (b.getD 13 0x00#8).getLsbD 7 } := by
  have h : List.range 14 = List.range 13 ++ [13] := rfl
  rw [rawEvents, h, pinsAfter_wrList]

theorem length_rawEvents (cfg : Params) (m : Mode) (b : List Byte) :
    (rawEvents cfg m b).length = 1414 := by
  rw [rawEvents, length_wrList, List.length_range]

theorem length_initEvents (cfg : Params) (m : Mode) (b : Fin 16) :
    (initEvents cfg m b).length = 159 := by
  simp only [initEvents, List.length_append, length_cmdEvents]

theorem gridByte_lt (g : Vector Byte 7) (i : Nat) (h : i < 7) : gridByte g i = g[i] := by
  simp [gridByte, h]

theorem deviceAddr_eq (cfg : Params) (m : Mode) (o : Nat) :
    deviceAddr cfg m o = addressAt cfg m o := by
  apply BitVec.eq_of_toNat_eq
  simp [deviceAddr, addressAt]

/-! ## The character encoder -/

/-- A table entry has bit 7 clear, so every character's pattern has (R28, R120). -/
theorem charToSeg_bit7 (cfg : Params) (c : Chr) : (charToSeg cfg c).getLsbD 7 = false := by
  unfold charToSeg digitSeg letterSeg
  split
  · simp
  · split
    · simp
    · split <;> simp

/-- The loop of RENDER fills at most the grids that are left. -/
theorem length_renderCells (cfg : Params) (n : Nat) (t : Str) :
    (renderCells cfg n t).length ≤ n := by
  fun_induction renderCells cfg n t <;> simp_all

theorem gridOf_get (cells : List Byte) (i : Fin 7) : (gridOf cells)[i] = cells.getD i.val 0x00#8 := by
  simp [gridOf]

/-- The grids from N on are blank after a render (R121). -/
theorem renderGrid_blank (cfg : Params) (m : Mode) (t : Str) (i : Fin 7) (h : nGrids m ≤ i.val) :
    (renderGrid cfg m t)[i] = 0x00#8 := by
  rw [renderGrid, gridOf_get]
  have := length_renderCells cfg (nGrids m) t
  exact List.getD_eq_default _ _ (Nat.le_trans this h)

/-! ## The envelope, the grant, the requests -/

theorem serve_running (body : State → State) (s : State) (h : engineRuns s.phase = true) :
    serve body s = .next (body s) := by
  simp [serve, h]

theorem serve_off (body : State → State) (s : State) (h : engineRuns s.phase = false) :
    serve body s = .next (fail .eNotRunning s) := by
  simp [serve, h]

/-- If `takeRequest` finds a request, it is the caller's and it is the first of the caller's. -/
theorem takeRequest_some (i : Nat) (rs : List Request) (r : Request) (rest : List Request)
    (h : takeRequest i rs = some (r, rest)) :
    r.caller = i ∧ ∃ pre post, rs = pre ++ r :: post ∧ rest = pre ++ post ∧
      ∀ q ∈ pre, q.caller ≠ i := by
  induction rs generalizing rest with
  | nil => simp [takeRequest] at h
  | cons q qs ih =>
    unfold takeRequest at h
    split at h
    · next hq =>
      simp only [Option.some.injEq, Prod.mk.injEq] at h
      obtain ⟨rfl, rfl⟩ := h
      exact ⟨hq, [], qs, rfl, rfl, by simp⟩
    · next hq =>
      simp only [Option.map_eq_some_iff] at h
      obtain ⟨⟨r', rest'⟩, h1, h2⟩ := h
      simp only [Prod.mk.injEq] at h2
      obtain ⟨rfl, rfl⟩ := h2
      obtain ⟨hc, pre, post, e1, e2, e3⟩ := ih rest' h1
      refine ⟨hc, q :: pre, post, by simp [e1], by simp [e2], ?_⟩
      intro x hx
      rcases List.mem_cons.mp hx with rfl | hx
      · exact hq
      · exact e3 x hx

end Sys2Proof.Machine
end

