-- ==== Sys2Proof/Laws/PerInstr.lean ====
section
/-!
SUPPORT. Statements about every instruction, one lemma for each constructor.

OpcodeTable: the encoding of an instruction starts with a byte that matches the pattern and the mask of
the instruction's own row of the opcode table.
-/

namespace Sys2Proof.Laws.OpcodeTable

/-- The first byte of the encoding matches the instruction's row under its mask (R80, R89). -/
def Statement (i : Instr) : Prop :=
  ∃ row first rest, i.row = some row ∧ encode i = first :: rest ∧
    first &&& row.mask = row.pattern

theorem sendbyte (b : Byte) : Statement (.sendbyte b) := ⟨_, _, _, rfl, rfl, by decide⟩

theorem sendcmd (c : Byte) : Statement (.sendcmd c) := ⟨_, _, _, rfl, rfl, by decide⟩

theorem readbyte : Statement .readbyte := ⟨_, _, _, rfl, rfl, by decide⟩

theorem char2seg (c : Byte) : Statement (.char2seg c) := ⟨_, _, _, rfl, rfl, by decide⟩

theorem render (text : Str) : Statement (.render text) := ⟨_, _, _, rfl, rfl, by decide⟩

theorem wrreg (a : Byte) (d : Byte) : Statement (.wrreg a d) := ⟨_, _, _, rfl, rfl, by decide⟩

theorem wrgrid : Statement .wrgrid := ⟨_, _, _, rfl, rfl, by decide⟩

theorem wrrawb (b : List Byte) : Statement (.wrrawb b) := ⟨_, _, _, rfl, rfl, by decide⟩

theorem initseq : Statement .initseq := ⟨_, _, _, rfl, rfl, by decide⟩

theorem scankeys : Statement .scankeys := ⟨_, _, _, rfl, rfl, by decide⟩

theorem decodekey (k : List Byte) : Statement (.decodekey k) := ⟨_, _, _, rfl, rfl, by decide⟩

theorem pushkey (c : Byte) : Statement (.pushkey c) := ⟨_, _, _, rfl, rfl, by decide⟩

theorem getbrt : Statement .getbrt := ⟨_, _, _, rfl, rfl, by decide⟩

theorem setbrt (v : Int) : Statement (.setbrt v) := ⟨_, _, _, rfl, rfl, by decide⟩

theorem gettm : Statement .gettm := ⟨_, _, _, rfl, rfl, by decide⟩

theorem settm (f : Byte) : Statement (.settm f) := ⟨_, _, _, rfl, rfl, by decide⟩

theorem gettxt : Statement .gettxt := ⟨_, _, _, rfl, rfl, by decide⟩

theorem settxt (t : Str) : Statement (.settxt t) := ⟨_, _, _, rfl, rfl, by decide⟩

theorem getmode : Statement .getmode := ⟨_, _, _, rfl, rfl, by decide⟩

theorem setmode (sel : Byte) : Statement (.setmode sel) := ⟨_, _, _, rfl, rfl, by decide⟩

theorem popkey : Statement .popkey := ⟨_, _, _, rfl, rfl, by decide⟩

theorem clrkeys : Statement .clrkeys := ⟨_, _, _, rfl, rfl, by decide⟩

theorem showkeys : Statement .showkeys := ⟨_, _, _, rfl, rfl, by decide⟩

theorem wrraw (t : Str) : Statement (.wrraw t) := ⟨_, _, _, rfl, rfl, by decide⟩

theorem start (linesOk : Byte) : Statement (.start linesOk) := ⟨_, _, _, rfl, rfl, by decide⟩

theorem stop : Statement .stop := ⟨_, _, _, rfl, rfl, by decide⟩

theorem cmdMode (m : Mode) : Statement (.cmdMode m) := by
  cases m <;> exact ⟨_, _, _, rfl, rfl, by decide⟩

theorem cmdDataAutoinc : Statement .cmdDataAutoinc := ⟨_, _, _, rfl, rfl, by decide⟩

theorem cmdReadKeys : Statement .cmdReadKeys := ⟨_, _, _, rfl, rfl, by decide⟩

theorem addr (off : BitVec 4) : Statement (.addr off) := 
  ⟨_, _, _, rfl, rfl, by revert off; decide⟩

theorem cmdBright (b : BitVec 4) : Statement (.cmdBright b) := 
  ⟨_, _, _, rfl, rfl, by revert b; decide⟩

end Sys2Proof.Laws.OpcodeTable
end

