-- ==== Sys2Proof/Laws/WireView.lean ====
section
/-!
SUPPORT. What the byte-level view of R11 reads from each list of events the block emits.
-/

namespace Sys2Proof.Machine

open Sys2Proof.Safety

/-- Reading on from a view. -/
def viewFrom (v : WireView) (es : List PinEvent) : WireView := es.foldl viewEvent v

theorem viewFrom_append (v : WireView) (a b : List PinEvent) :
    viewFrom v (a ++ b) = viewFrom (viewFrom v a) b := by
  simp [viewFrom]

theorem viewFrom_nil (v : WireView) : viewFrom v [] = v := rfl

theorem viewOf_append (a b : List PinEvent) : viewOf (a ++ b) = viewFrom (viewOf a) b := by
  simp [viewOf, viewFrom]

theorem viewOf_eq (es : List PinEvent) : viewOf es = viewFrom viewStart es := rfl

/-- Write cells inside a strobe window add their bits; DATA keeps the last one. -/
theorem view_writeCells (d : Bool) (w : Window) (done : List Transaction) (bs : List Bool) :
    viewFrom ⟨d, some w, done⟩ (bs.flatMap writeCell) =
      ⟨bs.getLastD d, some ⟨w.writtenBits ++ bs, w.readBits⟩, done⟩ := by
  induction bs generalizing d w with
  | nil => simp [viewFrom]
  | cons b bs ih =>
    have hc : viewFrom ⟨d, some w, done⟩ (writeCell b) =
        ⟨b, some ⟨w.writtenBits ++ [b], w.readBits⟩, done⟩ := rfl
    rw [List.flatMap_cons, viewFrom_append, hc, ih, List.getLastD_cons]
    simp

/-- Outside a strobe window write cells are no transaction. -/
theorem view_writeCells_closed (d : Bool) (done : List Transaction) (bs : List Bool) :
    viewFrom ⟨d, none, done⟩ (bs.flatMap writeCell) = ⟨bs.getLastD d, none, done⟩ := by
  induction bs generalizing d with
  | nil => simp [viewFrom]
  | cons b bs ih =>
    have hc : viewFrom ⟨d, none, done⟩ (writeCell b) = ⟨b, none, done⟩ := rfl
    rw [List.flatMap_cons, viewFrom_append, hc, ih, List.getLastD_cons]

/-- Eight write cells inside a strobe window add the eight bits of the byte. -/
theorem view_byteEvents (d : Bool) (w : Window) (done : List Transaction) (b : Byte) :
    viewFrom ⟨d, some w, done⟩ (byteEvents b) =
      ⟨b.getLsbD 7, some ⟨w.writtenBits ++ byteBits b, w.readBits⟩, done⟩ :=
  view_writeCells d w done (byteBits b)

theorem view_byteEvents_closed (d : Bool) (done : List Transaction) (b : Byte) :
    viewFrom ⟨d, none, done⟩ (byteEvents b) = ⟨b.getLsbD 7, none, done⟩ :=
  view_writeCells_closed d done (byteBits b)

/-- Read cells inside a strobe window add the bits the samples count as. -/
theorem view_readEvents (d : Bool) (w : Window) (done : List Transaction) (xs : List Sample) :
    viewFrom ⟨d, some w, done⟩ (readEvents xs) =
      ⟨d, some ⟨w.writtenBits, w.readBits ++ xs.map sampleBit⟩, done⟩ := by
  induction xs generalizing w with
  | nil => simp [readEvents, viewFrom]
  | cons x xs ih =>
    have h : readEvents (x :: xs) = readCell x ++ readEvents xs := by simp [readEvents]
    have hc : viewFrom ⟨d, some w, done⟩ (readCell x) =
        ⟨d, some ⟨w.writtenBits, w.readBits ++ [sampleBit x]⟩, done⟩ := by
      simp [viewFrom, readCell, viewEvent]
    rw [h, viewFrom_append, hc, ih]
    simp

/-- Outside a strobe window read cells are no transaction. -/
theorem view_readEvents_closed (d : Bool) (done : List Transaction) (xs : List Sample) :
    viewFrom ⟨d, none, done⟩ (readEvents xs) = ⟨d, none, done⟩ := by
  induction xs with
  | nil => simp [readEvents, viewFrom]
  | cons x xs ih =>
    have h : readEvents (x :: xs) = readCell x ++ readEvents xs := by simp [readEvents]
    have hc : viewFrom ⟨d, none, done⟩ (readCell x) = ⟨d, none, done⟩ := by
      simp [viewFrom, readCell, viewEvent]
    rw [h, viewFrom_append, hc, ih]

theorem bytesOfBits_flatMap (bs : List Byte) : bytesOfBits (bs.flatMap byteBits) = bs := by
  induction bs with
  | nil => rfl
  | cons b bs ih => rw [List.flatMap_cons, bytesOfBits_byteBits, ih]

theorem closeWindow_bytes (ws rs : List Byte) :
    closeWindow ⟨ws.flatMap byteBits, rs.flatMap byteBits⟩ = ⟨ws, rs⟩ := by
  rw [closeWindow, bytesOfBits_flatMap, bytesOfBits_flatMap]

/-- The release of the strobe ends the transaction. -/
theorem view_close (x : Bool) (w : Window) (done : List Transaction) :
    viewFrom ⟨x, some w, done⟩ [.settle, .level .stb true, .settle] =
      ⟨x, none, done ++ [closeWindow w]⟩ := rfl

/-- The CMD events are the transaction `<c>`. -/
theorem view_cmdEvents (d : Bool) (done : List Transaction) (c : Byte) :
    viewFrom ⟨d, none, done⟩ (cmdEvents c) =
      ⟨c.getLsbD 7, none, done ++ [commandTx c]⟩ := by
  have h1 : viewFrom ⟨d, none, done⟩ [.level .stb false, .settle] = ⟨d, some ⟨[], []⟩, done⟩ := rfl
  rw [cmdEvents, viewFrom_append, viewFrom_append, h1, view_byteEvents]
  have hw := closeWindow_bytes [c] []
  simp only [List.flatMap_cons, List.flatMap_nil, List.append_nil] at hw
  rw [view_close, List.nil_append, hw]
  rfl

/-- The WR events are the transaction `<a d>`. -/
theorem view_wrEvents (x : Bool) (done : List Transaction) (a d : Byte) :
    viewFrom ⟨x, none, done⟩ (wrEvents a d) =
      ⟨d.getLsbD 7, none, done ++ [writeTx a d]⟩ := by
  have h1 : viewFrom ⟨x, none, done⟩ [.level .stb false, .settle] = ⟨x, some ⟨[], []⟩, done⟩ := rfl
  rw [wrEvents, viewFrom_append, viewFrom_append, viewFrom_append, h1, view_byteEvents,
    view_byteEvents]
  have hw := closeWindow_bytes [a, d] []
  simp only [List.flatMap_cons, List.flatMap_nil, List.append_nil] at hw
  rw [view_close, List.nil_append, hw]
  rfl

/-- WR events for a list of indices are their transactions in order. -/
theorem view_wrList (x : Bool) (done : List Transaction) (l : List Nat) (f g : Nat → Byte) :
    ∃ y, viewFrom ⟨x, none, done⟩ (l.flatMap fun i => wrEvents (f i) (g i)) =
      ⟨y, none, done ++ l.map fun i => writeTx (f i) (g i)⟩ := by
  induction l generalizing x done with
  | nil => exact ⟨x, by simp [viewFrom]⟩
  | cons i l ih =>
    obtain ⟨y, hy⟩ := ih ((g i).getLsbD 7) (done ++ [writeTx (f i) (g i)])
    refine ⟨y, ?_⟩
    rw [List.flatMap_cons, viewFrom_append, view_wrEvents, hy]
    simp

/-- The initialization sequence is its three command transactions (R126). -/
theorem view_initEvents (x : Bool) (done : List Transaction) (cfg : Params) (m : Mode)
    (b : Fin 16) :
    viewFrom ⟨x, none, done⟩ (initEvents cfg m b) =
      ⟨(brightCommand cfg b).getLsbD 7, none, done ++ initTxs cfg m b⟩ := by
  rw [initEvents, viewFrom_append, viewFrom_append, view_cmdEvents, view_cmdEvents,
    view_cmdEvents]
  simp [initTxs, brightCommand]

/-- WRGRID's events are its N transactions (R123). -/
theorem view_gridEvents (x : Bool) (done : List Transaction) (cfg : Params) (m : Mode)
    (g : Vector Byte 7) :
    ∃ y, viewFrom ⟨x, none, done⟩ (gridEvents cfg m g) = ⟨y, none, done ++ gridTxs cfg m g⟩ := by
  obtain ⟨y, hy⟩ := view_wrList x done (List.range (nGrids m)) (gridAddr cfg m) (gridByte g)
  refine ⟨y, ?_⟩
  rw [gridEvents, hy, gridTxs]
  congr 2
  refine List.map_congr_left fun i hi => ?_
  have h7 : i < 7 := by
    have := List.mem_range.mp hi
    cases m <;> simp [nGrids] at this <;> omega
  rw [gridAddr, deviceAddr_eq, gridByte_lt _ _ h7]
  congr 1
  simp [h7]

/-- The idle events open no strobe window and close none that is closed. -/
theorem view_idleEvents (x : Bool) (done : List Transaction) :
    viewFrom ⟨x, none, done⟩ idleEvents = ⟨true, none, done⟩ := rfl

/-- The bits of the Device's next `8*n` answers are those of its next `n` bytes. -/
theorem sampleBits_bytes (n : Nat) (s : State) :
    ((List.range (8 * n)).map (deviceStream s)).map sampleBit =
      ((List.range n).map (deviceByte s)).flatMap byteBits := by
  induction n with
  | zero => rfl
  | succ n ih =>
    have h : 8 * (n + 1) = 8 * n + 8 := by omega
    rw [h, List.range_add, List.map_append, List.map_append, ih, List.range_succ (n := n),
      List.map_append, List.flatMap_append, List.map_map, List.map_map]
    congr 1
    simp only [List.map_cons, List.map_nil, List.flatMap_cons, List.flatMap_nil, List.append_nil,
      byteBits_deviceByte]
    rfl

/-- SCANKEYS' events are the one transaction `<c | k0 .. k4>` (R140). -/
theorem view_scanEvents (x : Bool) (done : List Transaction) (s : State) :
    viewFrom ⟨x, none, done⟩ (scanEvents s) =
      ⟨true, none, done ++ [⟨[s.cfg.cmdReadKeys], (List.range 5).map (deviceByte s)⟩]⟩ := by
  have h1 : viewFrom ⟨x, none, done⟩ [.level .stb false, .settle] = ⟨x, some ⟨[], []⟩, done⟩ := rfl
  have h2 : ∀ v : WireView, viewFrom v [.dir .input, .settle] = v := fun _ => rfl
  rw [scanEvents, rdOpenEvents, viewFrom_append, viewFrom_append, viewFrom_append, viewFrom_append,
    h1, view_byteEvents, h2, readByteEvents, view_readEvents, sampleBits_bytes]
  have h3 : ∀ w : Window, viewFrom ⟨s.cfg.cmdReadKeys.getLsbD 7, some w, done⟩ rdCloseEvents =
      ⟨true, none, done ++ [closeWindow w]⟩ := fun _ => rfl
  have hw := closeWindow_bytes [s.cfg.cmdReadKeys] ((List.range 5).map (deviceByte s))
  simp only [List.flatMap_cons, List.flatMap_nil, List.append_nil] at hw
  rw [h3, List.nil_append, List.nil_append, hw]

end Sys2Proof.Machine
end

