-- ==== Sys2Proof/Laws/Sent.lean ====
section
/-!
SUPPORT. The operations that send something, in the terms the claims use: the lists of events of Safety
are those of Ops, each carries its transactions, and sending changes pins and trace and no other field.
-/

namespace Sys2Proof.Machine

open Sys2Proof.Safety

/-! ## The lists of events -/

theorem shiftOut_eq (b : Byte) : shiftOut b = byteEvents b := rfl

theorem commandOut_eq (c : Byte) : commandOut c = cmdEvents c := rfl

theorem writeOut_eq (a d : Byte) : writeOut a d = wrEvents a d := rfl

theorem clockedIn_eq (s : State) (n : Nat) : clockedIn s 0 (8 * n) = readByteEvents n s := by
  simp [clockedIn, readByteEvents, readEvents, readCell, List.flatMap_map]

theorem scanOut_eq (s : State) : scanOut s = scanEvents s := by
  have h : clockedIn s 0 40 = readByteEvents 5 s := clockedIn_eq s 5
  rw [scanOut, h]
  rfl

theorem initOut_eq (cfg : Params) (m : Mode) (b : Fin 16) : initOut cfg m b = initEvents cfg m b := rfl

theorem gridByte_eq (g : Vector Byte 7) (i : Nat) : gridByte g i = g.toList.getD i 0x00#8 := by
  unfold gridByte
  split <;> next h => simp [h]

theorem gridOut_eq (cfg : Params) (m : Mode) (g : Vector Byte 7) :
    gridOut cfg m g = gridEvents cfg m g := by
  simp only [gridOut, gridEvents, gridAddr, deviceAddr_eq, gridByte_eq, writeOut_eq]

theorem rawOut_eq (cfg : Params) (m : Mode) (b : List Byte) :
    rawOut cfg m b = rawEvents cfg m b := by
  simp only [rawOut, rawEvents, rawAddr, deviceAddr_eq, writeOut_eq]

theorem gridTxs_blank (cfg : Params) (m : Mode) :
    gridTxs cfg m blankGrid =
      (List.range (nGrids m)).map fun i => writeTx (addressAt cfg m (2 * i)) 0x00#8 := by
  refine List.map_congr_left fun i hi => ?_
  have h7 : i < 7 := by
    have := List.mem_range.mp hi
    cases m <;> simp [nGrids] at this <;> omega
  rw [← gridByte_eq, gridByte_lt _ _ h7]
  simp [blankGrid]

/-! ## The transactions they carry (R11) -/

theorem carries_of_view {es : List PinEvent} {txs : List Transaction} {y : Bool}
    (h : viewFrom viewStart es = ⟨y, none, txs⟩) : Carries es txs := by
  simp [Carries, wholeTrace, transactionsOf, viewOf_eq, h]

theorem carries_grid (cfg : Params) (m : Mode) (g : Vector Byte 7) :
    Carries (gridEvents cfg m g) (gridTxs cfg m g) := by
  obtain ⟨y, hy⟩ := view_gridEvents true [] cfg m g
  exact carries_of_view (y := y) hy

theorem carries_raw (cfg : Params) (m : Mode) (b : List Byte) :
    Carries (rawEvents cfg m b)
      ((List.range 14).map fun j => writeTx (addressAt cfg m j) (b.getD j 0x00#8)) := by
  obtain ⟨y, hy⟩ := view_wrList true [] (List.range 14) (rawAddr cfg m) fun j => b.getD j 0x00#8
  refine carries_of_view (y := y) (hy.trans ?_)
  simp only [rawAddr, deviceAddr_eq, List.nil_append]

theorem carries_init (cfg : Params) (m : Mode) (b : Fin 16) :
    Carries (initEvents cfg m b) (initTxs cfg m b) :=
  carries_of_view (view_initEvents _ [] cfg m b)

/-! ## What sending changes -/

theorem emit_drove (es : List PinEvent) (d : Bool) (s : State)
    (h : pinsAfter s.pins es = { s.pins with stb := true, clk := true, dio := d }) :
    emit es s = drove es d s := by
  simp [emit, drove, h]

theorem wrGrid_drove (s : State) :
    wrGrid s = drove (gridEvents s.cfg s.mode s.grid)
      ((s.grid.toList.getD (nGrids s.mode - 1) 0x00#8).getLsbD 7) s :=
  emit_drove _ _ _ (by rw [pinsAfter_gridEvents, gridByte_eq])

theorem wrRawB_drove (b : List Byte) (s : State) :
    wrRawB b s = drove (rawEvents s.cfg s.mode b) ((b.getD 13 0x00#8).getLsbD 7) s :=
  emit_drove _ _ _ (pinsAfter_rawEvents _ _ _ _)

theorem initSeq_drove (s : State) :
    initSeq s = drove (initEvents s.cfg s.mode s.brightness)
      ((s.cfg.cmdBright[s.brightness]).getLsbD 7) s :=
  emit_drove _ _ _ (by rw [pinsAfter_initEvents, brightCommand])

theorem showText_showed (t : Str) (s : State) :
    showText t s = showed (gridEvents s.cfg s.mode (renderGrid s.cfg s.mode t))
      (renderGrid s.cfg s.mode t) s := by
  rw [showText, wrGrid_drove]
  rfl

theorem clearDisp_showed (s : State) :
    clearDisp s = showed (gridEvents s.cfg s.mode blankGrid) blankGrid s := by
  rw [clearDisp, wrGrid_drove]
  rfl

end Sys2Proof.Machine
end

