-- ==== Sys2Proof/Laws/Served.lean ====
section
/-!
SUPPORT. What a request served in a running engine, and what the body of a step of the loop, can do to
the state, said once: the fields it keeps, the events it adds, and the invariant of R36.
-/

namespace Sys2Proof.Machine

open Sys2Proof.Safety

/-- A list of events that cuts no transaction and leaves the lines at rest. -/
structure CleanEvents (es : List PinEvent) : Prop where
  view : ∀ d done, ∃ y txs, viewFrom ⟨d, none, done⟩ es = ⟨y, none, done ++ txs⟩
  rest : ∀ p : Pins, LinesAtRest p → LinesAtRest (pinsAfter p es)

/-- `u` comes from `s` by work of a running engine: the parameters, the phase, the grant and the inputs
are kept, the events added are clean, the pins follow them, and the invariant of R36 is kept. -/
structure Worked (s u : State) : Prop where
  cfg : u.cfg = s.cfg
  phase : u.phase = s.phase
  stopReq : u.stopReq = s.stopReq
  owner : u.owner = s.owner
  stopWait : u.stopWait = s.stopWait
  pending : u.pending = s.pending
  turns : u.turns = s.turns
  responses : u.responses = s.responses
  events : ∃ es, u.trace = s.trace ++ es ∧ u.pins = pinsAfter s.pins es ∧ CleanEvents es
  inv : EngineInv s → EngineInv u

/-! ## Clean events -/

theorem CleanEvents.nil : CleanEvents [] :=
  ⟨fun d done => ⟨d, [], by simp [viewFrom]⟩, fun _ h => h⟩

theorem CleanEvents.append {a b : List PinEvent} (ha : CleanEvents a) (hb : CleanEvents b) :
    CleanEvents (a ++ b) := by
  refine ⟨fun d done => ?_, fun p h => by rw [pinsAfter_append]; exact hb.rest _ (ha.rest _ h)⟩
  obtain ⟨y, txs, h1⟩ := ha.view d done
  obtain ⟨z, txs', h2⟩ := hb.view y (done ++ txs)
  exact ⟨z, txs ++ txs', by rw [viewFrom_append, h1, h2, List.append_assoc]⟩

theorem CleanEvents.bytes (b : Byte) : CleanEvents (byteEvents b) :=
  ⟨fun d done => ⟨_, [], by rw [view_byteEvents_closed, List.append_nil]⟩,
    fun p h => by rw [pinsAfter_byteEvents]; exact ⟨h.1, rfl, h.2.2⟩⟩

theorem CleanEvents.cmd (c : Byte) : CleanEvents (cmdEvents c) :=
  ⟨fun d done => ⟨_, _, view_cmdEvents d done c⟩,
    fun p h => by rw [pinsAfter_cmdEvents]; exact ⟨rfl, rfl, h.2.2⟩⟩

theorem CleanEvents.wr (a d : Byte) : CleanEvents (wrEvents a d) :=
  ⟨fun x done => ⟨_, _, view_wrEvents x done a d⟩,
    fun p h => by rw [pinsAfter_wrEvents]; exact ⟨rfl, rfl, h.2.2⟩⟩

theorem CleanEvents.flatMap {α : Type} (l : List α) (f : α → List PinEvent)
    (h : ∀ x, CleanEvents (f x)) : CleanEvents (l.flatMap f) := by
  induction l with
  | nil => exact .nil
  | cons x l ih => rw [List.flatMap_cons]; exact (h x).append ih

theorem CleanEvents.init (cfg : Params) (m : Mode) (b : Fin 16) : CleanEvents (initEvents cfg m b) :=
  ((CleanEvents.cmd _).append (.cmd _)).append (.cmd _)

theorem CleanEvents.grid (cfg : Params) (m : Mode) (g : Vector Byte 7) :
    CleanEvents (gridEvents cfg m g) := .flatMap _ _ fun _ => .wr _ _

theorem CleanEvents.raw (cfg : Params) (m : Mode) (b : List Byte) :
    CleanEvents (rawEvents cfg m b) := .flatMap _ _ fun _ => .wr _ _

theorem CleanEvents.reads (xs : List Sample) : CleanEvents (readEvents xs) :=
  ⟨fun d done => ⟨d, [], by rw [view_readEvents_closed, List.append_nil]⟩,
    fun p h => by rw [pinsAfter_readEvents _ _ h.2.1]; exact h⟩

theorem CleanEvents.scan (s : State) : CleanEvents (scanEvents s) :=
  ⟨fun d done => ⟨_, _, view_scanEvents d done s⟩,
    fun p _ => by rw [pinsAfter_scanEvents]; exact ⟨rfl, rfl, rfl⟩⟩

theorem CleanEvents.idle : CleanEvents idleEvents :=
  ⟨fun d done => ⟨true, [], by rw [view_idleEvents, List.append_nil]⟩,
    fun _ _ => ⟨rfl, rfl, rfl⟩⟩

theorem CleanEvents.pause (p : Pause) : CleanEvents [.pause p] :=
  ⟨fun d done => ⟨d, [], by simp [viewFrom, viewEvent]⟩, fun _ h => h⟩

/-! ## What each operation does -/

theorem Worked.refl (s : State) : Worked s s :=
  ⟨rfl, rfl, rfl, rfl, rfl, rfl, rfl, rfl, ⟨[], by simp [pinsAfter, CleanEvents.nil]⟩, id⟩

theorem Worked.trans {s t u : State} (h : Worked s t) (k : Worked t u) : Worked s u := by
  obtain ⟨es, h1, h2, h3⟩ := h.events
  obtain ⟨fs, k1, k2, k3⟩ := k.events
  exact ⟨k.cfg.trans h.cfg, k.phase.trans h.phase, k.stopReq.trans h.stopReq,
    k.owner.trans h.owner, k.stopWait.trans h.stopWait, k.pending.trans h.pending,
    k.turns.trans h.turns, k.responses.trans h.responses,
    ⟨es ++ fs, by rw [k1, h1, List.append_assoc], by rw [k2, h2, pinsAfter_append], h3.append k3⟩,
    k.inv ∘ h.inv⟩

theorem Worked.emit {es : List PinEvent} (h : CleanEvents es) (s : State) : Worked s (emit es s) :=
  ⟨rfl, rfl, rfl, rfl, rfl, rfl, rfl, rfl, ⟨es, rfl, rfl, h⟩,
    fun i => ⟨i.1, h.rest _ i.2.1, i.2.2⟩⟩

/-- Fields that no invariant reads: the inputs of the oracles, mode, brightness, text, flag. -/
theorem Worked.settings (s : State) (m : Mode) (b : Fin 16) (t : Str) (f : Bool) :
    Worked s { s with mode := m, brightness := b, text := t, timeMode := f } :=
  ⟨rfl, rfl, rfl, rfl, rfl, rfl, rfl, rfl, ⟨[], by simp [pinsAfter, CleanEvents.nil]⟩, id⟩

theorem Worked.samples (n : Nat) (s : State) : Worked s (usedSamples n s) :=
  ⟨rfl, rfl, rfl, rfl, rfl, rfl, rfl, rfl, ⟨[], by simp [usedSamples, pinsAfter, CleanEvents.nil]⟩, id⟩

theorem Worked.clock (s : State) : Worked s (takeClock s).2 := by
  unfold takeClock
  cases s.clockIn <;>
    exact ⟨rfl, rfl, rfl, rfl, rfl, rfl, rfl, rfl, ⟨[], by simp [pinsAfter, CleanEvents.nil]⟩, id⟩

theorem Worked.queue (s : State) (q : List Chr)
    (h : s.queue.length ≤ s.cfg.queueCap.val → q.length ≤ s.cfg.queueCap.val) :
    Worked s { s with queue := q } :=
  ⟨rfl, rfl, rfl, rfl, rfl, rfl, rfl, rfl, ⟨[], by simp [pinsAfter, CleanEvents.nil]⟩,
    fun i => ⟨h i.1, i.2⟩⟩

theorem Worked.setGrid (s : State) (g : Vector Byte 7)
    (h : ∀ i : Fin 7, nGrids s.mode ≤ i.val → g[i] = 0x00#8) : Worked s (setGrid g s) :=
  ⟨rfl, rfl, rfl, rfl, rfl, rfl, rfl, rfl,
    ⟨[], by simp [Machine.setGrid, pinsAfter, CleanEvents.nil]⟩, fun i => ⟨i.1, i.2.1, h⟩⟩

theorem Worked.wrGrid (s : State) : Worked s (wrGrid s) := .emit (.grid _ _ _) s

theorem Worked.initSeq (s : State) : Worked s (initSeq s) := .emit (.init _ _ _) s

theorem Worked.wrRawB (b : List Byte) (s : State) : Worked s (wrRawB b s) := .emit (.raw _ _ _) s

theorem Worked.sendByte (b : Byte) (s : State) : Worked s (sendByte b s) := .emit (.bytes _) s

theorem Worked.showText (t : Str) (s : State) : Worked s (showText t s) :=
  (Worked.setGrid s _ fun i h => renderGrid_blank _ _ _ i h).trans (.wrGrid _)

theorem blankGrid_get (i : Fin 7) : blankGrid[i] = 0x00#8 := by
  simp [blankGrid]

theorem Worked.clearDisp (s : State) : Worked s (clearDisp s) :=
  (Worked.setGrid s _ fun i _ => blankGrid_get i).trans (.wrGrid _)

theorem length_pushQueue (cfg : Params) (c : Chr) (q : List Chr)
    (h : q.length ≤ cfg.queueCap.val) : (pushQueue cfg c q).length ≤ cfg.queueCap.val := by
  unfold pushQueue
  split
  · simp; omega
  · exact h

theorem Worked.pushKey (c : Chr) (s : State) : Worked s (pushKey c s) :=
  .queue s _ (length_pushQueue _ _ _)

theorem Worked.readByte (s : State) : Worked s (readByte s).2 := by
  rw [readByte_eq]
  exact (Worked.emit (.reads _) s).trans (.samples _ _)

theorem Worked.scanKeys (s : State) : Worked s (scanKeys s).2 := by
  rw [scanKeys_eq]
  exact (Worked.emit (.scan s) s).trans (.samples _ _)

theorem Worked.setTimeMode (f : Bool) (s : State) : Worked s (setTimeMode f s) := by
  have h : Worked s { s with timeMode := f } := .settings s s.mode s.brightness s.text f
  cases f
  · exact h.trans (.showText _ _)
  · exact h

/-! ## Requests -/

/-- A request the envelope performs (R175): it answers once, after work of the engine; a failure is
EMalformed, carries no value, and leaves the state as it was. -/
def ServedOnce (s : State) (o : Host.Outcome State Fault Refusal) : Prop :=
  ∃ st v u, o = .next (respond st v u) ∧ Worked s u ∧
    (st = .ok ∨ (st = .eMalformed ∧ v = .none ∧ u = s))

theorem ServedOnce.ok {s u : State} {body : State → State} {v : Value}
    (hr : engineRuns s.phase = true) (hb : body s = respondOk v u) (h : Worked s u) :
    ServedOnce s (serve body s) :=
  ⟨.ok, v, u, by rw [serve_running _ _ hr, hb]; rfl, h, .inl rfl⟩

theorem ServedOnce.malformed {s : State} {body : State → State} (hr : engineRuns s.phase = true)
    (hb : body s = fail .eMalformed s) : ServedOnce s (serve body s) :=
  ⟨.eMalformed, .none, s, by rw [serve_running _ _ hr, hb]; rfl, .refl s, .inr ⟨rfl, rfl, rfl⟩⟩

/-- In a running engine every instruction but START and STOP is served once. -/
theorem exec_served (i : Instr) (s : State) (hr : engineRuns s.phase = true)
    (hstart : ∀ f, i ≠ .start f) (hstop : i ≠ .stop) : ServedOnce s (exec i s) := by
  cases i with
  | start f => exact absurd rfl (hstart f)
  | stop => exact absurd rfl hstop
  | sendbyte b =>
    simp only [exec, execSendbyte]
    exact .ok (u := sendByte b s) hr rfl (.sendByte b s)
  | sendcmd c =>
    simp only [exec, execSendcmd]
    exact .ok (u := sendCmd c s) hr rfl (.emit (.cmd c) s)
  | readbyte =>
    simp only [exec, execReadbyte]
    exact .ok (body := fun s => respondOk (.b8 (readByte s).1) (readByte s).2)
      (v := .b8 (readByte s).1) (u := (readByte s).2) hr (Eq.refl _) (.readByte s)
  | char2seg c =>
    simp only [exec, execChar2seg]
    exact .ok (u := s) hr rfl (.refl s)
  | render t =>
    simp only [exec, execRender]
    exact .ok (u := s) hr rfl (.refl s)
  | wrreg a d =>
    simp only [exec, execWrreg]
    exact .ok (u := wrReg a d s) hr rfl (.emit (.wr a d) s)
  | wrgrid =>
    simp only [exec, execWrgrid]
    exact .ok (u := wrGrid s) hr rfl (.wrGrid s)
  | wrrawb b =>
    simp only [exec, execWrrawb]
    exact .ok (u := wrRawB b s) hr rfl (.wrRawB b s)
  | initseq =>
    simp only [exec, execInitseq]
    exact .ok (u := initSeq s) hr rfl (.initSeq s)
  | scankeys =>
    simp only [exec, execScankeys]
    exact .ok (body := fun s => respondOk (.bytes (scanKeys s).1) (scanKeys s).2)
      (v := .bytes (scanKeys s).1) (u := (scanKeys s).2) hr (Eq.refl _) (.scanKeys s)
  | decodekey k =>
    simp only [exec, execDecodekey]
    exact .ok (u := s) hr rfl (.refl s)
  | pushkey c =>
    simp only [exec, execPushkey]
    exact .ok (u := pushKey c s) hr rfl (.pushKey c s)
  | getbrt =>
    simp only [exec, execGetbrt]
    exact .ok (u := s) hr rfl (.refl s)
  | setbrt v =>
    simp only [exec, execSetbrt]
    exact .ok (u := initSeq { s with brightness := clampBright v }) hr rfl
      ((Worked.settings s s.mode (clampBright v) s.text s.timeMode).trans (.initSeq _))
  | gettm =>
    simp only [exec, execGettm]
    exact .ok (u := s) hr rfl (.refl s)
  | settm f =>
    simp only [exec, execSettm]
    exact .ok (u := setTimeMode (isOn f) s) hr rfl (.setTimeMode _ s)
  | gettxt =>
    simp only [exec, execGettxt]
    exact .ok (u := s) hr rfl (.refl s)
  | settxt t =>
    simp only [exec, execSettxt]
    exact .ok (u := showText t { s with text := t }) hr rfl
      ((Worked.settings s s.mode s.brightness t s.timeMode).trans (.showText t _))
  | getmode =>
    simp only [exec, execGetmode]
    exact .ok (u := s) hr rfl (.refl s)
  | setmode sel =>
    simp only [exec, execSetmode]
    cases h : modeOfSel sel with
    | none => exact .malformed hr rfl
    | some m =>
      exact .ok (u := initSeq { s with mode := m }) hr rfl
        ((Worked.settings s m s.brightness s.text s.timeMode).trans (.initSeq _))
  | popkey =>
    simp only [exec, execPopkey]
    exact .ok (u := { s with queue := s.queue.tail }) hr rfl
      (.queue s _ fun h => by rw [List.length_tail]; omega)
  | clrkeys =>
    simp only [exec, execClrkeys]
    exact .ok (u := clearDisp { s with queue := [] }) hr rfl
      ((Worked.queue s [] fun _ => Nat.zero_le _).trans (.clearDisp _))
  | showkeys =>
    simp only [exec, execShowkeys]
    exact .ok (u := s) hr rfl (.refl s)
  | wrraw t =>
    simp only [exec, execWrraw]
    cases h : hexBytes t with
    | none => exact .malformed hr rfl
    | some b =>
      exact .ok (u := wrRawB b s) hr rfl (.wrRawB b s)
  | cmdMode m =>
    simp only [exec, execCmdMode]
    exact .ok (u := sendByte (perMode s.cfg.cmdMode m) s) hr rfl (.sendByte _ s)
  | cmdDataAutoinc =>
    simp only [exec, execCmdDataAutoinc]
    exact .ok (u := sendByte s.cfg.cmdDataAutoinc s) hr rfl (.sendByte _ s)
  | cmdReadKeys =>
    simp only [exec, execCmdReadKeys]
    exact .ok (u := sendByte s.cfg.cmdReadKeys s) hr rfl (.sendByte _ s)
  | addr off =>
    simp only [exec, execAddr]
    exact .ok (u := sendByte (deviceAddr s.cfg s.mode off.toNat) s) hr rfl (.sendByte _ s)
  | cmdBright b =>
    simp only [exec, execCmdBright]
    exact .ok (u := sendByte (brightCommand s.cfg b.toFin) s) hr rfl (.sendByte _ s)

/-! ## The loop -/

/-- A step of the loop that has a step: work of the engine under the grant, then the phase. -/
theorem loopStep_worked (s : State) (ho : s.owner = .none) :
    Worked s { loopStep s with phase := s.phase } := by
  have key : ∀ (f : State → State) (p : Phase), Worked (takeGrant .loop s) (f (takeGrant .loop s)) →
      Worked s { loopOperation (fun s => { f s with phase := p }) s with phase := s.phase } := by
    intro f p h
    exact ⟨h.cfg, rfl, h.stopReq, ho.symm, h.stopWait, h.pending, h.turns, h.responses, h.events,
      h.inv⟩
  have paced : ∀ (u : State) (p : Pause), Worked s { u with phase := s.phase } →
      Worked s { pacing p u with phase := s.phase } := fun u p h =>
    h.trans (Worked.emit (.pause p) { u with phase := s.phase })
  unfold loopStep
  split
  · next k hk =>
    split
    · exact .refl s
    · unfold frameStep
      split
      · exact paced _ _ (key _ _ (.showText _ _))
      · split
        · exact paced _ _ (key _ _ (.showText _ _))
        · exact key _ _ (.clearDisp _)
  · next hs =>
    split
    · exact .refl s
    · split
      · refine paced _ _ ?_
        have h := (Worked.clock (takeGrant .loop s)).trans
          (.showText (timeString (takeClock (takeGrant .loop s)).1) _)
        exact ⟨h.cfg, rfl, h.stopReq, ho.symm, h.stopWait, h.pending, h.turns, h.responses,
          h.events, h.inv⟩
      · refine paced _ _ ?_
        have hq : ∀ k u, Worked u (queueKey k u) := by
          intro k u
          cases k
          · exact .refl u
          · exact .pushKey _ u
        have h := (Worked.scanKeys (takeGrant .loop s)).trans
          (hq (decodeKey s.cfg.keymap (scanKeys (takeGrant .loop s)).1) _)
        exact ⟨h.cfg, rfl, h.stopReq, ho.symm, h.stopWait, h.pending, h.turns, h.responses,
          h.events, h.inv⟩
  all_goals exact .refl s

end Sys2Proof.Machine
end

