-- ==== Sys2Proof/Laws/Step.lean ====
section
/-!
SUPPORT. Everything exec and step can do, said once: the cases of START and STOP, and the cases of a step.
-/

namespace Sys2Proof.Machine

open Sys2Proof.Safety

/-- Where no engine runs, every instruction but START and STOP fails with ENotRunning (R205). -/
theorem exec_not_running (i : Instr) (s : State) (hr : engineRuns s.phase = false)
    (hstart : ∀ f, i ≠ .start f) (hstop : i ≠ .stop) :
    exec i s = .next (respond .eNotRunning .none s) := by
  cases i
  case start f => exact absurd rfl (hstart f)
  case stop => exact absurd rfl hstop
  all_goals
    unfold exec
    exact serve_off _ s hr

/-- What START's steps 1 and 2 do (R37, R188): the lines idle, the defaults, and nothing else. -/
theorem startReset_eq (s : State) :
    startReset s =
      { s with
        mode := .m6x11, brightness := 10, grid := Vector.replicate 7 0x00#8, text := [],
        timeMode := false, queue := [], stopReq := false, renderN := 0, pins := Pins.idle,
        trace := s.trace ++ idleEvents } := rfl

/-- What START can do (R188). -/
theorem execStart_cases (f : Byte) (s : State) :
    (s.phase ≠ .off ∧ exec (.start f) s = .next (respond .eAlreadyRunning .none s)) ∨
    (s.phase = .off ∧ f = 0x00#8 ∧
      exec (.start f) s = .next (respond .eFatalLines .none { s with phase := .failed })) ∨
    (s.phase = .off ∧ f ≠ 0x00#8 ∧
      exec (.start f) s = .next (respond .ok .none (startEngine s))) := by
  by_cases hp : s.phase = .off
  · by_cases hf : f = 0x00#8
    · exact .inr (.inl ⟨hp, hf, by simp [exec, execStart, hp, hf, isOn, fail]⟩)
    · refine .inr (.inr ⟨hp, hf, ?_⟩)
      have : isOn f = true := bne_iff_ne.mpr hf
      simp [exec, execStart, hp, this, respondOk]
  · exact .inl ⟨hp, by simp [exec, execStart, hp, fail]⟩

/-- What the first operation of STOP can do (R189). -/
theorem execStop_cases (s : State) :
    (s.phase = .off ∧ exec .stop s = .next (respond .eNotRunning .none s)) ∨
    (s.phase = .failed ∧ exec .stop s = .next (respond .ok .none { s with phase := .off })) ∨
    (engineRuns s.phase = true ∧
      exec .stop s = .next { s with stopReq := true, stopWait := s.stopWait ++ [s.owner] }) := by
  cases h : s.phase <;> simp [exec, execStop, h, engineRuns, fail, respondOk]

/-- Taking a turn changes `turns` and `draws` only. -/
theorem nextTurn_eq (s : State) :
    ∃ (l : List Agent) (n : Nat), (nextTurn s).2 = { s with turns := l, draws := n } := by
  unfold nextTurn
  cases s.turns
  · exact ⟨[], s.draws + 1, by simp_all⟩
  · exact ⟨_, s.draws, rfl⟩

/-- The state after a turn is taken, as a step goes on from it. -/
def turned (s : State) (l : List Agent) (n : Nat) : State := { s with turns := l, draws := n }

/-- The state in which a request is served: the request taken, its caller holding the grant. -/
def granted (s : State) (l : List Agent) (n : Nat) (c : Nat) (rest : List Request) : State :=
  { s with turns := l, draws := n, pending := rest, owner := .caller c }

/-- Everything a step can do. -/
theorem step_cases {s t : State} (h : step s = .next t) :
    (s.owner ≠ .none ∧ t = s) ∨
    (s.owner = .none ∧ ∃ l n,
      t = turned s l n ∨
      t = loopStep (turned s l n) ∨
      (∃ c, Owner.caller c ∈ s.stopWait ∧ t = resumeStop c (turned s l n)) ∨
      (∃ c rest, t = release (respond .eMalformed .none (granted s l n c rest))) ∨
      (∃ c rest i u, exec i (granted s l n c rest) = .next u ∧ t = release u)) := by
  unfold step at h
  split at h
  · next ho =>
    refine .inr ⟨ho, ?_⟩
    obtain ⟨l, n, e⟩ := nextTurn_eq s
    refine ⟨l, n, ?_⟩
    rw [e] at h
    cases ha : (nextTurn s).1 with
    | loop =>
      rw [ha] at h
      exact .inr (.inl (Host.Outcome.next.inj h).symm)
    | caller c =>
      rw [ha] at h
      simp only [agentTurn, callerTurn] at h
      split at h
      · next hm => exact .inr (.inr (.inl ⟨c, hm, (Host.Outcome.next.inj h).symm⟩))
      · split at h
        · exact .inl (Host.Outcome.next.inj h).symm
        · next r rest _ =>
          unfold serveRequest at h
          split at h
          · exact .inr (.inr (.inr (.inl ⟨c, rest, (Host.Outcome.next.inj h).symm⟩)))
          · next i _ =>
            refine .inr (.inr (.inr (.inr ⟨c, rest, i, ?_⟩)))
            cases hx : exec i (takeGrant (.caller c)
                { s with turns := l, draws := n, pending := rest }) with
            | next u =>
              rw [hx] at h
              exact ⟨u, hx, (Host.Outcome.next.inj h).symm⟩
            | fault r => rw [hx] at h; cases h
            | refused r => rw [hx] at h; cases h
  · next ho => exact .inl ⟨ho, (Host.Outcome.next.inj h).symm⟩

end Sys2Proof.Machine
end

