-- ==== Sys2Proof/Machine/Assembly.lean ====
section
/-!
DEFINITION. The assembler syntax of R84 as a printer: one line for a request, and one for a step of the
loop. The WIRE rows are no requests and have no line.
-/

namespace Sys2Proof.Machine

/-- A hexadecimal digit. -/
def hexDigit (n : Nat) : Char := Char.ofNat (if n < 10 then 0x30 + n else 0x37 + n)

/-- A byte as two hexadecimal digits. -/
def hexByte (b : Byte) : String := String.ofList [hexDigit (b.toNat / 16), hexDigit (b.toNat % 16)]

/-- A byte operand. -/
def asmByte (b : Byte) : String := "0x" ++ hexByte b

/-- A string operand in double quotes. -/
def asmStr (s : Str) : String :=
  "\"" ++ String.ofList (s.map fun c => Char.ofNat c.toNat) ++ "\""

/-- A byte list in square brackets. -/
def asmBytes (bs : List Byte) : String := "[" ++ " ".intercalate (bs.map hexByte) ++ "]"

/-- A mode selector: the label of the mode, or the number of an invalid name (R88). -/
def asmSel (sel : Byte) : String :=
  match sel with
  | 0#8 => "M4x13"
  | 1#8 => "M5x12"
  | 2#8 => "M6x11"
  | 3#8 => "M7x10"
  | _ => toString sel.toNat

/-- The operand text of a request; none for the WIRE rows. -/
def asmOperand : Instr → Option String
  | .sendbyte b | .sendcmd b | .char2seg b | .pushkey b | .settm b | .start b => some (asmByte b)
  | .wrreg a d => some (asmByte a ++ ", " ++ asmByte d)
  | .render t | .settxt t | .wrraw t => some (asmStr t)
  | .wrrawb b => some (asmBytes b)
  | .decodekey k => some (asmBytes k)
  | .setbrt v => some (toString v)
  | .setmode sel => some (asmSel sel)
  | .readbyte | .wrgrid | .initseq | .scankeys | .getbrt | .gettm | .gettxt | .getmode | .popkey
  | .clrkeys | .showkeys | .stop => some ""
  | .cmdMode _ | .cmdDataAutoinc | .cmdReadKeys | .addr _ | .cmdBright _ => none

/-- The line of a request: the mnemonic, then the operand. -/
def asmLine (i : Instr) : Option String :=
  (asmOperand i).map fun t => if t = "" then i.mnemonic else i.mnemonic ++ " " ++ t

/-- The steps of the loop as R84 writes them. -/
inductive LoopLine where
  | frame
  | time (t : ClockTime)
  | scan (k : List Byte)
  | halt
  deriving DecidableEq, Repr

/-- Two decimal digits. -/
def dec2 (n : Nat) : String := String.ofList [hexDigit (n / 10), hexDigit (n % 10)]

/-- The line of a step of the loop. -/
def asmLoop : LoopLine → String
  | .frame => "loop: frame"
  | .time t => "loop: time " ++ dec2 t.hh.val ++ ":" ++ dec2 t.mm.val ++ ":" ++ dec2 t.ss.val
  | .scan k => "loop: scan " ++ asmBytes k
  | .halt => "loop: halt"

end Sys2Proof.Machine
end

