-- ==== Sys2Proof/Tests/Slice0.lean ====
section
/-!
SUPPORT. Tests on single steps, their expected results taken from 95_test_vectors.md, from the examples
of the rules, or by hand from the encodings of R80, R81, R74 and R75; and one witness for the hypotheses
of each statement.
-/

namespace Sys2Proof.Tests

-- Theorems one after another: each kernel evaluation takes a thread of its own otherwise.
set_option Elab.async false

open Sys2Proof.Machine Sys2Proof.Safety

/-! ## Helpers -/

/-- A running engine in Steady with the default parameters, blank, lines idle: the start state of the
programs of 95_test_vectors.md. -/
def steady : State := { State.reset with cfg := Config.defaultParams, phase := .steady }

/-- The next state, if there is one. -/
def got : Host.Outcome State Fault Refusal → Option State
  | .next s => some s
  | .fault _ => none
  | .refused _ => none

/-- The transactions of the whole trace after an outcome. -/
def sent (o : Host.Outcome State Fault Refusal) : Option (List Transaction) :=
  (got o).map fun s => transactionsOf s.trace

/-- The response bytes after an outcome. -/
def said (o : Host.Outcome State Fault Refusal) : Option (List (Option (List Byte))) :=
  (got o).map fun s => s.responses.map responseBytes

/-- The Device's answers of one byte, bit 0 first. -/
def answers (b : Byte) : List Sample := (byteBits b).map fun x => if x then .one else .zero

/-- Five scan bytes as the Device's answers. -/
def scanAnswers (k : List Byte) : List Sample := k.flatMap answers

/-! ## Well-formedness: one ill-formed term for each check -/

theorem test_wf_render_too_long : Instr.wf (.render (List.replicate 65536 0x31#8)) = false := by
  rw [Instr.wf, strFits, List.length_replicate]
  rfl

theorem test_wf_render_longest : Instr.wf (.render (List.replicate 65535 0x31#8)) = true := by
  rw [Instr.wf, strFits, List.length_replicate]
  rfl

theorem test_wf_settxt_too_long : Instr.wf (.settxt (List.replicate 65536 0x31#8)) = false := by
  rw [Instr.wf, strFits, List.length_replicate]
  rfl

theorem test_wf_wrraw_too_long : Instr.wf (.wrraw (List.replicate 65536 0x31#8)) = false := by
  rw [Instr.wf, strFits, List.length_replicate]
  rfl

theorem test_wf_wrrawb_lengths :
    Instr.wf (.wrrawb (List.replicate 13 0)) = false ∧
    Instr.wf (.wrrawb (List.replicate 15 0)) = false ∧
    Instr.wf (.wrrawb (List.replicate 14 0)) = true := by decide

theorem test_wf_decodekey_lengths :
    Instr.wf (.decodekey [0, 0, 0, 0]) = false ∧ Instr.wf (.decodekey [0, 0, 0, 0, 0, 0]) = false ∧
    Instr.wf (.decodekey [0, 0, 0, 0, 0]) = true := by decide

theorem test_wf_setbrt_range :
    Instr.wf (.setbrt 2147483648) = false ∧ Instr.wf (.setbrt (-2147483649)) = false ∧
    Instr.wf (.setbrt 2147483647) = true ∧ Instr.wf (.setbrt (-2147483648)) = true := by decide

theorem test_wf_addr_offsets :
    Instr.wf (.addr 14) = false ∧ Instr.wf (.addr 15) = false ∧ Instr.wf (.addr 13) = true := by
  decide

/-! ## Decoding: a word of every row, from the tables of R80, R81, R74, R75 and the vectors -/

/-- Request bytes of sections 2.5 and 2.7 of the vectors: the framing and display rows. -/
theorem test_decode_framing_and_display :
    decode .port [0x01, 0x8A] = .ok (.sendbyte 0x8A) ∧
    decode .port [0x02, 0x40] = .ok (.sendcmd 0x40) ∧
    decode .port [0x03] = .ok .readbyte ∧
    decode .port [0x10, 0x68] = .ok (.char2seg 0x68) ∧
    decode .port [0x11, 0x04, 0x00, 0x31, 0x32, 0x2E, 0x35] =
      .ok (.render [0x31, 0x32, 0x2E, 0x35]) ∧
    decode .port [0x12, 0xC2, 0xDB] = .ok (.wrreg 0xC2 0xDB) ∧
    decode .port [0x13] = .ok .wrgrid ∧
    decode .port [0x14, 0x3F, 0x06, 0xDB, 0x4F, 0, 0, 0, 0, 0, 0, 0, 0, 0, 0xFF] =
      .ok (.wrrawb [0x3F, 0x06, 0xDB, 0x4F, 0, 0, 0, 0, 0, 0, 0, 0, 0, 0xFF]) ∧
    decode .port [0x15] = .ok .initseq := by decide

/-- The key rows. -/
theorem test_decode_keys :
    decode .port [0x20] = .ok .scankeys ∧
    decode .port [0x21, 0x00, 0x10, 0x00, 0x00, 0x00] = .ok (.decodekey [0x00, 0x10, 0, 0, 0]) ∧
    decode .port [0x22, 0x35] = .ok (.pushkey 0x35) := by decide

/-- The control surface. An i32 has its least significant byte first. -/
theorem test_decode_control :
    decode .port [0x40] = .ok .getbrt ∧
    decode .port [0x41, 0x14, 0x00, 0x00, 0x00] = .ok (.setbrt 20) ∧
    decode .port [0x41, 0x00, 0x01, 0x00, 0x80] = .ok (.setbrt (-2147483392)) ∧
    decode .port [0x42] = .ok .gettm ∧
    decode .port [0x43, 0x01] = .ok (.settm 1) ∧
    decode .port [0x44] = .ok .gettxt ∧
    decode .port [0x45, 0x02, 0x00, 0x41, 0x42] = .ok (.settxt [0x41, 0x42]) ∧
    decode .port [0x46] = .ok .getmode ∧
    decode .port [0x47, 0x03] = .ok (.setmode 3) ∧
    decode .port [0x48] = .ok .popkey ∧
    decode .port [0x49] = .ok .clrkeys ∧
    decode .port [0x4A] = .ok .showkeys ∧
    decode .port [0x4B, 0x01, 0x00, 0x67] = .ok (.wrraw [0x67]) := by decide

theorem test_decode_lifecycle :
    decode .port [0x70, 0x01] = .ok (.start 1) ∧ decode .port [0x7F] = .ok .stop := by decide

/-- The five WIRE rows (R74, R75): 000000mm, 0x40, 0x42, 1100aaaa, 1000bbbb. -/
theorem test_decode_wire :
    decode .wire [0x02] = .ok (.cmdMode .m6x11) ∧
    decode .wire [0x40] = .ok .cmdDataAutoinc ∧
    decode .wire [0x42] = .ok .cmdReadKeys ∧
    decode .wire [0xCD] = .ok (.addr 13) ∧
    decode .wire [0x8A] = .ok (.cmdBright 10) := by decide

/-- Malformed requests of section 2.6 of the vectors, each refused by name. -/
theorem test_decode_refuses :
    decode .port [] = .error .emptyRequest ∧
    decode .port [0x05] = .error (.unknownTag 0x05) ∧
    decode .port [0x41, 0x0A, 0x00] = .error .tooShort ∧
    decode .port [0x45, 0x03, 0x00, 0x41, 0x42] = .error .tooShort ∧
    decode .port [0x40, 0x00] = .error .tooLong ∧
    decode .port [0x45, 0x01, 0x00, 0x41, 0x42] = .error .tooLong ∧
    decode .wire [0xCE] = .error (.unknownWireByte 0xCE) ∧
    decode .wire [0x41] = .error (.unknownWireByte 0x41) := by decide

/-- Table words of 8 bits: operand bytes of zeros follow a tag, other words stand on the wire. -/
theorem test_table_words :
    decodeTableWord 8 0x01 = some (.sendbyte 0) ∧
    decodeTableWord 8 0x11 = some (.render []) ∧
    decodeTableWord 8 0x14 = some (.wrrawb (List.replicate 14 0)) ∧
    decodeTableWord 8 0x41 = some (.setbrt 0) ∧
    decodeTableWord 8 0x40 = some .getbrt ∧
    decodeTableWord 8 0x00 = some (.cmdMode .m4x13) ∧
    decodeTableWord 8 0xC5 = some (.addr 5) ∧
    decodeTableWord 8 0x8F = some (.cmdBright 15) ∧
    decodeTableWord 8 0x05 = none := by decide

/-- Any two rows of one channel differ in a bit that both fix: the table is unambiguous. -/
theorem test_rows_disjoint :
    ∀ ch ∈ [Channel.port, Channel.wire], (rowsOf ch).Pairwise fun a b =>
      a.pattern &&& a.mask &&& b.mask ≠ b.pattern &&& a.mask &&& b.mask := by decide

/-! ## Framing -/

/-- Section 2.1: `SENDBYTE 0x8A`, the bits 0,1,0,1,0,0,0,1 in this order. -/
theorem test_sendbyte_8A :
    (got (exec (.sendbyte 0x8A) steady)).map (fun s => (s.trace, s.pins)) =
      some ([false, true, false, true, false, false, false, true].flatMap fun v =>
        [.level .clk false, .settle, .level .dio v, .settle, .level .clk true, .settle],
        ⟨true, true, true, .output⟩) := by decide

/-- Section 2.1: `SENDCMD 0x40`. -/
theorem test_sendcmd_40 :
    sent (exec (.sendcmd 0x40) steady) = some [⟨[0x40], []⟩] ∧
    (got (exec (.sendcmd 0x40) steady)).map (fun s => s.pins.dio) = some false := by
  decide +kernel

/-- Section 2.1: samples 1,undef,0,0,0,0,0,1 give 0x81. -/
theorem test_readbyte_81 :
    said (exec .readbyte { steady with
      deviceIn := [.one, .undef, .zero, .zero, .zero, .zero, .zero, .one] }) =
      some [some [0x00, 0x81]] := by decide

/-! ## Display -/

/-- Section 2.2: case folds, and the neighbours of the ranges are blank. -/
theorem test_char2seg_table :
    [0x30, 0x37, 0x39, 0x41, 0x61, 0x48, 0x68, 0x5A, 0x7A, 0x2E, 0x2F, 0x3A, 0x40, 0x5B, 0x60, 0x7B,
        0xE9].map (charToSeg Config.defaultParams) =
      [0x3F, 0x07, 0x6F, 0x77, 0x77, 0x76, 0x76, 0x5B, 0x5B, 0, 0, 0, 0, 0, 0, 0, 0] := by decide

/-- Section 2.7: `CHAR2SEG 'h'` answers 0x76. -/
theorem test_char2seg_h : said (exec (.char2seg 0x68) steady) = some [some [0x00, 0x76]] := by decide

/-- Section 2.2: "1..2" in M6x11, and "123456." whose dot merges into the last grid. -/
theorem test_render_dots :
    renderGrid Config.defaultParams .m6x11 [0x31, 0x2E, 0x2E, 0x32] =
      #v[0x86, 0x5B, 0, 0, 0, 0, 0] ∧
    renderGrid Config.defaultParams .m6x11 [0x31, 0x32, 0x33, 0x34, 0x35, 0x36, 0x2E] =
      #v[0x06, 0x5B, 0x4F, 0x66, 0x6D, 0xFD, 0] := by decide

/-- Section 2.7: `RENDER "12.5"` answers seven bytes and leaves Grid alone. -/
theorem test_render_request :
    said (exec (.render [0x31, 0x32, 0x2E, 0x35]) steady) =
      some [some [0x00, 0x06, 0xDB, 0x6D, 0, 0, 0, 0]] ∧
    (got (exec (.render [0x31, 0x32, 0x2E, 0x35]) steady)).map (fun s => s.grid) =
      some steady.grid := by decide

/-- Section 2.2: `WRREG 0xC2, 0xDB`. -/
theorem test_wrreg :
    sent (exec (.wrreg 0xC2 0xDB) steady) = some [⟨[0xC2, 0xDB], []⟩] := by decide +kernel

/-- Section 2.2: WRGRID in M4x13 sends four grids, entries 4..6 stay. -/
theorem test_wrgrid_m4x13 :
    sent (exec .wrgrid { steady with
      mode := .m4x13, grid := #v[0x06, 0xDB, 0x6D, 0x11, 0x22, 0x33, 0x44] }) =
      some [⟨[0xC0, 0x06], []⟩, ⟨[0xC2, 0xDB], []⟩, ⟨[0xC4, 0x6D], []⟩, ⟨[0xC6, 0x11], []⟩] := by
  decide +kernel

/-- R52, D15: addresses wrap modulo 256; all 14 registers are written, one transaction each. -/
theorem test_wrrawb_wraps :
    sent (exec (.wrrawb [1, 2, 3, 4, 5, 6, 7, 8, 9, 10, 11, 12, 13, 14])
      { steady with cfg := { Config.defaultParams with base := ⟨0xC0, 0xC0, 0xFE, 0xC0⟩ } }) =
      some [⟨[0xFE, 1], []⟩, ⟨[0xFF, 2], []⟩, ⟨[0x00, 3], []⟩, ⟨[0x01, 4], []⟩, ⟨[0x02, 5], []⟩,
        ⟨[0x03, 6], []⟩, ⟨[0x04, 7], []⟩, ⟨[0x05, 8], []⟩, ⟨[0x06, 9], []⟩, ⟨[0x07, 10], []⟩,
        ⟨[0x08, 11], []⟩, ⟨[0x09, 12], []⟩, ⟨[0x0A, 13], []⟩, ⟨[0x0B, 14], []⟩] := by
  decide +kernel

/-- R126, reset state: `<02> <40> <8A>`. -/
theorem test_initseq :
    sent (exec .initseq steady) = some [⟨[0x02], []⟩, ⟨[0x40], []⟩, ⟨[0x8A], []⟩] := by
  decide +kernel

/-! ## Keys -/

/-- R140: the device answers 0x01, 0, 0, 0, 0: `<42 | 01 00 00 00 00>`, lines idle after it. -/
theorem test_scankeys :
    sent (exec .scankeys { steady with deviceIn := scanAnswers [0x01, 0, 0, 0, 0] }) =
      some [⟨[0x42], [0x01, 0, 0, 0, 0]⟩] ∧
    said (exec .scankeys { steady with deviceIn := scanAnswers [0x01, 0, 0, 0, 0] }) =
      some [some [0x00, 0x01, 0, 0, 0, 0]] := by decide +kernel

/-- R141: table order decides, and a bit without an entry is ignored. -/
theorem test_decodekey :
    said (exec (.decodekey [0x02, 0x01, 0, 0, 0]) steady) = some [some [0x00, 0x01, 0x32]] ∧
    said (exec (.decodekey [0x04, 0, 0, 0, 0]) steady) = some [some [0x00, 0x00]] := by decide

/-- R142 with QUEUE_CAP = 4 (program P6): at 3 the push fits, at 4 it is dropped; the answer is OK. -/
theorem test_pushkey_capacity :
    (got (exec (.pushkey 0x35) { steady with
      cfg := { Config.defaultParams with queueCap := 4 }, queue := [1, 2, 3] })).map (fun s => s.queue)
      = some [1, 2, 3, 0x35] ∧
    (got (exec (.pushkey 0x35) { steady with
      cfg := { Config.defaultParams with queueCap := 4 }, queue := [1, 2, 3, 4] })).map
        (fun s => (s.queue, s.responses.map responseBytes)) = some ([1, 2, 3, 4], [some [0x00]]) := by
  decide

/-! ## Control surface -/

/-- P2, line 3. -/
theorem test_getbrt :
    said (exec .getbrt { steady with brightness := 15 }) = some [some [0x00, 0x0F]] := by decide

/-- P2, line 2: `SETBRT 20` stores 15 and sends `<02> <40> <8F>`. -/
theorem test_setbrt_20 :
    sent (exec (.setbrt 20) steady) = some [⟨[0x02], []⟩, ⟨[0x40], []⟩, ⟨[0x8F], []⟩] := by
  decide +kernel

/-- S1: the stored values of 0, 7, 15, 16, 255, -3. -/
theorem test_setbrt_clamps :
    [0, 7, 15, 16, 255, -3].map clampBright = [0, 7, 15, 15, 15, 0] := by decide

/-- P5, line 3. -/
theorem test_gettm :
    said (exec .gettm { steady with timeMode := true }) = some [some [0x00, 0x01]] := by decide

/-- P5, lines 2 and 9: on emits nothing, off sends the stored text "C". -/
theorem test_settm :
    sent (exec (.settm 1) steady) = some [] ∧
    sent (exec (.settm 0) { steady with text := [0x43], timeMode := true }) =
      some [⟨[0xC0, 0x39], []⟩, ⟨[0xC2, 0], []⟩, ⟨[0xC4, 0], []⟩, ⟨[0xC6, 0], []⟩, ⟨[0xC8, 0], []⟩,
        ⟨[0xCA, 0], []⟩] := by decide +kernel

/-- P4, line 3. -/
theorem test_gettxt :
    said (exec .gettxt { steady with text := [0x41, 0x42] }) =
      some [some [0x00, 0x02, 0x00, 0x41, 0x42]] := by decide

/-- P2, line 1. -/
theorem test_settxt :
    sent (exec (.settxt [0x31, 0x32, 0x2E, 0x35]) steady) =
      some [⟨[0xC0, 0x06], []⟩, ⟨[0xC2, 0xDB], []⟩, ⟨[0xC4, 0x6D], []⟩, ⟨[0xC6, 0], []⟩,
        ⟨[0xC8, 0], []⟩, ⟨[0xCA, 0], []⟩] := by decide +kernel

/-- Section 2.5: the four modes answer 0 to 3. -/
theorem test_getmode :
    [Mode.m4x13, .m5x12, .m6x11, .m7x10].map (fun m => said (exec .getmode { steady with mode := m }))
      = [some [some [0, 0]], some [some [0, 1]], some [some [0, 2]], some [some [0, 3]]] := by decide

/-- P2, lines 8 and 10: `SETMODE M7x10` sends `<03> <40> <8F>`, selector 9 is malformed. -/
theorem test_setmode :
    sent (exec (.setmode 3) { steady with brightness := 15 }) =
      some [⟨[0x03], []⟩, ⟨[0x40], []⟩, ⟨[0x8F], []⟩] ∧
    (got (exec (.setmode 9) steady)).map (fun s => (s.mode, s.trace, s.responses.map responseBytes)) =
      some (.m6x11, [], [some [0x01]]) := by decide +kernel

/-- P3, lines 7 and 9. -/
theorem test_popkey :
    (got (exec .popkey { steady with queue := [0x31, 0x32] })).map
      (fun s => (s.queue, s.responses.map responseBytes)) = some ([0x32], [some [0x00, 0x01, 0x31]]) ∧
    said (exec .popkey steady) = some [some [0x00, 0x00]] := by decide

/-- R185: the queue goes, the text stays. -/
theorem test_clrkeys :
    (got (exec .clrkeys { steady with queue := [0x31, 0x38], text := [0x41] })).map
      (fun s => (s.queue, s.text, s.trace.length)) = some ([], [0x41], 606) := by decide +kernel

/-- R186. -/
theorem test_showkeys :
    said (exec .showkeys { steady with queue := [0x31, 0x38] }) =
      some [some [0x00, 0x02, 0x00, 0x31, 0x38]] := by decide

/-- R187: mixed case, high nibble first. -/
theorem test_wrraw :
    (sent (exec (.wrraw [0x33, 0x66, 0x30, 0x36, 0x44, 0x42, 0x34, 0x66, 0x30, 0x30, 0x30, 0x30, 0x30,
      0x30, 0x30, 0x30, 0x30, 0x30, 0x30, 0x30, 0x30, 0x30, 0x30, 0x30, 0x30, 0x30, 0x46, 0x46])
      steady)).map (fun l => (l.take 4, l.getLast?)) =
      some ([⟨[0xC0, 0x3F], []⟩, ⟨[0xC1, 0x06], []⟩, ⟨[0xC2, 0xDB], []⟩, ⟨[0xC3, 0x4F], []⟩],
        some ⟨[0xCD, 0xFF], []⟩) := by decide +kernel

/-- P4, lines 1 and 2: 27 characters, and a character 'g' at the end. -/
theorem test_wrraw_malformed :
    (got (exec (.wrraw (List.replicate 27 0x30)) steady)).map (fun s => (s.trace, s.responses.length))
      = some ([], 1) ∧
    said (exec (.wrraw (List.replicate 27 0x30 ++ [0x67])) steady) = some [some [0x01]] := by
  decide

/-! ## Lifecycle (section 2.6) -/

theorem test_start :
    (got (exec (.start 1) { State.reset with cfg := Config.defaultParams })).map
      (fun s => (s.phase, transactionsOf s.trace, s.trace.take 4, s.pins.dio)) =
      some (.startup 0, [⟨[0x02], []⟩, ⟨[0x40], []⟩, ⟨[0x8A], []⟩],
        [.level .stb true, .level .clk true, .dir .output, .level .dio true], true) := by
  decide +kernel

theorem test_start_fails :
    said (exec (.start 0) State.reset) = some [some [0x03]] ∧
    said (exec (.start 0) { State.reset with phase := .failed }) = some [some [0x04]] ∧
    (got (exec (.start 0) State.reset)).map (fun s => s.phase) = some .failed := by decide

theorem test_stop :
    said (exec .stop State.reset) = some [some [0x02]] ∧
    (got (exec .stop { State.reset with phase := .failed })).map (fun s => s.phase) = some .off ∧
    (got (exec .stop steady)).map (fun s => (s.stopReq, s.stopWait, s.responses.length)) =
      some (true, [.none], 0) := by decide

/-- P7, lines 1 to 3, in the order of one caller and the loop. -/
theorem test_stop_sequence :
    got (Sys2Proof.core.run 3 { steady with
      pins := ⟨true, true, false, .output⟩, turns := [.caller 5, .loop, .caller 5],
      pending := [⟨5, .port, [0x7F]⟩] }) =
      some { steady with
        phase := .off, trace := [.level .stb true, .level .clk true, .dir .output, .level .dio true],
        responses := [⟨.caller 5, .ok, .none⟩] } := by decide +kernel

/-! ## Wire bytes -/

/-- Each WIRE row sends the parameter, not the default pattern. -/
theorem test_wire_rows_send_parameters :
    [Instr.cmdMode .m7x10, .cmdDataAutoinc, .cmdReadKeys, .addr 13, .cmdBright 3].map (fun i =>
      (got (exec i { steady with cfg := { Config.defaultParams with
        cmdMode := ⟨0, 0, 0, 0xA1⟩, cmdDataAutoinc := 0xA2, cmdReadKeys := 0xA3,
        base := ⟨0, 0, 0xF8, 0⟩, cmdBright := Vector.replicate 16 0xA4 } })).map fun s => s.trace) =
      [some (byteEvents 0xA1), some (byteEvents 0xA2), some (byteEvents 0xA3),
        some (byteEvents 0x05), some (byteEvents 0xA4)] := by decide +kernel

/-! ## The loop -/

/-- R156 with k = 3: six transactions of 0xCF, then the hold. -/
theorem test_frame_3 :
    (got (step { steady with phase := .startup 3, turns := [.loop] })).map (fun s =>
      (s.phase, s.grid, (transactionsOf s.trace).length, s.trace.getLast?)) =
      some (.startup 4, #v[0xCF, 0xCF, 0xCF, 0xCF, 0xCF, 0xCF, 0], 6, some (.pause .startupHold)) := by
  decide +kernel

/-- R87, section 2.4: the banner "HELLO". -/
theorem test_frame_banner :
    (got (step { steady with phase := .startup 10, turns := [.loop] })).map (fun s =>
      (s.phase, s.grid, s.trace.getLast?)) =
      some (.startup 11, #v[0x76, 0x79, 0x38, 0x38, 0x3F, 0, 0], some (.pause .bannerHold)) := by
  decide +kernel

/-- R159: 09:41:07. -/
theorem test_time_iteration :
    (got (step { steady with timeMode := true, clockIn := [⟨9, 41, 7⟩], turns := [.loop] })).map
      (fun s => (s.grid, s.text, s.trace.getLast?)) =
      some (#v[0x3F, 0xEF, 0x66, 0x86, 0x3F, 0x07, 0], [], some (.pause .timePause)) := by
  decide +kernel

/-- R160: queue ['1'], byte 1 bit 4 is key '8'. -/
theorem test_scan_iteration :
    (got (step { steady with
      queue := [0x31], deviceIn := scanAnswers [0, 0x10, 0, 0, 0], turns := [.loop] })).map (fun s =>
      (s.queue, transactionsOf s.trace, s.trace.getLast?)) =
      some ([0x31, 0x38], [⟨[0x42], [0, 0x10, 0, 0, 0]⟩], some (.pause .scanPause)) := by
  decide +kernel

/-! ## The step -/

/-- R33: the parameters are opaque and the request is still served, as the first one after power-on. -/
theorem test_first_request_from_reset :
    said (step (State.reset.withFetchWord 8 0x40)) = some [some [0x02]] ∧
    (got (step (State.reset.withFetchWord 16 0x0170))).map (fun s => (s.phase, s.owner)) =
      some (.startup 0, .none) := by decide

/-- Section 2.6: malformed bytes are answered 01 in any phase, and used up. -/
theorem test_malformed_request :
    (got (step { State.reset with turns := [.caller 2], pending := [⟨2, .port, [0x05]⟩] })).map
      (fun s => (s.pending, s.responses)) = some ([], [⟨.caller 2, .eMalformed, .none⟩]) := by decide

/-- R62 d: the oldest request of the caller whose turn it is, not the oldest of all. -/
theorem test_turn_takes_own_request :
    (got (step { steady with
      turns := [.caller 2], pending := [⟨1, .port, [0x46]⟩, ⟨2, .port, [0x40]⟩, ⟨2, .port, [0x42]⟩] })).map
      (fun s => (s.pending, s.responses)) =
      some ([⟨1, .port, [0x46]⟩, ⟨2, .port, [0x42]⟩], [⟨.caller 2, .ok, .b8 10⟩]) := by decide

/-- R84. -/
theorem test_assembler :
    asmLine (.wrreg 0xC2 0xDB) = some "WRREG 0xC2, 0xDB" ∧
    asmLine (.setbrt (-3)) = some "SETBRT -3" ∧
    asmLine (.decodekey [0, 0x10, 0, 0, 0]) = some "DECODEKEY [00 10 00 00 00]" ∧
    asmLine (.setmode 3) = some "SETMODE M7x10" ∧
    asmLoop (.time ⟨9, 41, 7⟩) = "loop: time 09:41:07" := by decide +kernel

/-! ## Witnesses: for each statement with hypotheses, states and operands that meet all of them

A statement's `NeedsEngine` side has the one hypothesis that no engine runs, which `State.reset` meets. -/

/-- Steady with the loop's turn next. -/
def loopNext : State := { steady with turns := [.loop] }

/-- A waiting STOP of caller 5, whose turn is next, in a given phase. -/
def waiting (p : Phase) : State :=
  { steady with phase := p, stopReq := true, stopWait := [.caller 5], turns := [.caller 5] }

/-- Caller 5 has issued some bytes, and its turn is next. -/
def asked (bs : List Byte) : State :=
  { steady with turns := [.caller 5], pending := [⟨5, .port, bs⟩] }

theorem witness_SendByteShiftsBitsLsbFirst :
    engineRuns steady.phase = true ∧ engineRuns State.reset.phase = false := ⟨rfl, rfl⟩

theorem witness_SendCmdIsOneCommandTransaction :
    engineRuns steady.phase = true ∧ engineRuns State.reset.phase = false := ⟨rfl, rfl⟩

theorem witness_ReadByteMakesByteOfEightSamples :
    engineRuns steady.phase = true ∧ engineRuns State.reset.phase = false := ⟨rfl, rfl⟩

theorem witness_WrRegIsOneWriteTransaction :
    engineRuns steady.phase = true ∧ engineRuns State.reset.phase = false := ⟨rfl, rfl⟩

theorem witness_WrGridSendsFirstGridsInOrder :
    engineRuns steady.phase = true ∧ engineRuns State.reset.phase = false := ⟨rfl, rfl⟩

theorem witness_InitSeqSendsModeDataBrightness :
    engineRuns steady.phase = true ∧ engineRuns State.reset.phase = false := ⟨rfl, rfl⟩

theorem witness_ScanKeysReadsFiveBytesInOneWindow :
    engineRuns steady.phase = true ∧ engineRuns State.reset.phase = false := ⟨rfl, rfl⟩

theorem witness_GettersAnswerAndChangeNothing :
    engineRuns steady.phase = true ∧ engineRuns State.reset.phase = false := ⟨rfl, rfl⟩

theorem witness_ClrKeysEmptiesQueueAndBlanks :
    engineRuns steady.phase = true ∧ engineRuns State.reset.phase = false := ⟨rfl, rfl⟩

theorem witness_Char2SegFollowsTables :
    (engineRuns steady.phase = true ∧ engineRuns State.reset.phase = false) ∧
    ∀ c ∈ ([0x00, 0x2F, 0x3A, 0x40, 0x5B, 0x60, 0x7B, 0xFF] : List Chr),
      ¬ (0x30 ≤ c.toNat ∧ c.toNat ≤ 0x39) ∧ ¬ (0x41 ≤ c.toNat ∧ c.toNat ≤ 0x5A) ∧
      ¬ (0x61 ≤ c.toNat ∧ c.toNat ≤ 0x7A) := by decide

theorem witness_RenderPairsEachCharacterWithItsDot :
    (engineRuns steady.phase = true ∧ engineRuns State.reset.phase = false) ∧
    (List.replicate 65535 0x31#8).length < 65536 := by
  rw [List.length_replicate]
  decide

theorem witness_SetTxtStoresRendersAndSends :
    (engineRuns steady.phase = true ∧ engineRuns State.reset.phase = false) ∧
    (List.replicate 65535 0x31#8).length < 65536 := by
  rw [List.length_replicate]
  decide

theorem witness_WrRawBWritesFourteenRegisters :
    (engineRuns steady.phase = true ∧ engineRuns State.reset.phase = false) ∧
    (List.replicate 14 0xFF#8).length = 14 := by decide

theorem witness_SettleDelaysPerOperation :
    engineRuns steady.phase = true ∧
    ∃ p ∈ ([(.sendbyte 0, 24), (.sendcmd 0, 27), (.readbyte, 16), (.wrreg 0 0, 51),
      (.wrgrid, 51 * nGrids steady.mode), (.wrrawb [], 714), (.initseq, 81), (.scankeys, 107)] :
      List (Instr × Nat)), p.2 = 107 := by decide

theorem witness_DecodeKeyTakesFirstEntryInTableOrder :
    (engineRuns steady.phase = true ∧ engineRuns State.reset.phase = false) ∧
    ([0, 0x10, 0, 0, 0] : List Byte).length = 5 := by decide

theorem witness_PushKeyAppendsOrDropsNewest :
    (engineRuns steady.phase = true ∧ engineRuns State.reset.phase = false) ∧
    ([1, 2, 3] : List Chr).length <
      ({ Config.defaultParams with queueCap := 4 } : Params).queueCap.val ∧
    ({ Config.defaultParams with queueCap := 4 } : Params).queueCap.val ≤
      ([1, 2, 3, 4] : List Chr).length := by decide

theorem witness_SetBrtClampsAndReissuesInit :
    (engineRuns steady.phase = true ∧ engineRuns State.reset.phase = false) ∧
    ((-2147483648 : Int) ≤ 2147483647 ∧ (2147483647 : Int) < 2147483648) ∧
    ((-2147483648 : Int) ≤ -2147483648 ∧ (-2147483648 : Int) < 2147483648) := by decide

theorem witness_SetTmOffRedrawsStoredText :
    (engineRuns steady.phase = true ∧ engineRuns State.reset.phase = false) ∧
    (0xFF#8 : Byte) ≠ 0x00#8 := by decide

theorem witness_SetModeSelectsOrRejects :
    (engineRuns steady.phase = true ∧ engineRuns State.reset.phase = false) ∧
    ((3, .m7x10) ∈ ([(0, .m4x13), (1, .m5x12), (2, .m6x11), (3, .m7x10)] : List (Byte × Mode))) ∧
    4 ≤ (4 : Byte).toNat ∧ 4 ≤ (255 : Byte).toNat := by decide

theorem witness_PopKeyTakesTheOldest :
    (engineRuns steady.phase = true ∧ engineRuns State.reset.phase = false) ∧
    (∃ c q, ({ steady with queue := [0x31, 0x32] } : State).queue = c :: q) ∧
    steady.queue = [] := ⟨⟨rfl, rfl⟩, ⟨_, _, rfl⟩, rfl⟩

theorem witness_HexBytesAcceptsTwentyEightHexCharacters :
    ((List.replicate 28 0x66#8).length = 28 ∧ ∀ c ∈ List.replicate 28 0x66#8, isHexChr c = true) ∧
    (List.replicate 27 0x30#8).length ≠ 28 ∧
    ∃ c ∈ List.replicate 27 0x30#8 ++ [0x67#8], isHexChr c = false := by decide

theorem witness_WrRawIsAllOrNothing :
    (engineRuns steady.phase = true ∧ engineRuns State.reset.phase = false) ∧
    ((List.replicate 28 0x66#8).length = 28 ∧ ∀ c ∈ List.replicate 28 0x66#8, isHexChr c = true) ∧
    (List.replicate 27 0x30#8).length ≠ 28 ∧
    ∃ c ∈ List.replicate 27 0x30#8 ++ [0x67#8], isHexChr c = false := by decide

theorem witness_StartCreatesTheEngine :
    (State.reset.phase = .off ∧ (0xFF#8 : Byte) ≠ 0x00#8) ∧ steady.phase ≠ .off ∧
    ({ State.reset with phase := .failed } : State).phase ≠ .off := by decide

theorem witness_StartSetsTheResetRecordBeforeInit :
    State.reset.phase = .off ∧ (0x01#8 : Byte) ≠ 0x00#8 := by decide

theorem witness_DataKeepsTheLastLevelDriven :
    (engineRuns steady.phase = true ∧ LinesAtRest steady.pins) ∧
    (State.reset.phase = .off ∧ (0xFF#8 : Byte) ≠ 0x00#8) ∧
    (waiting .halted).owner = .none ∧ (waiting .halted).turns = [.caller 5] ∧
    Owner.caller 5 ∈ (waiting .halted).stopWait ∧ (waiting .halted).phase = .halted :=
  ⟨⟨rfl, rfl, rfl, rfl⟩, by decide⟩

theorem witness_StopTakesTwoOperations :
    State.reset.phase = .off ∧ ({ steady with phase := .failed } : State).phase = .failed ∧
    engineRuns steady.phase = true ∧
    ∀ p ∈ [Phase.halted, .off, .steady, .failed], (waiting p).owner = .none ∧
      (waiting p).turns = [.caller 5] ∧ Owner.caller 5 ∈ (waiting p).stopWait ∧
      (waiting p).phase = p := by decide

theorem witness_StopThenHaltLeadsToOff :
    ∃ s : State, s.owner = .none ∧ loopActive s.phase = true ∧ Owner.caller 5 ∉ s.stopWait ∧
      s.turns = [.caller 5, .loop, .caller 5] ∧ s.pending = [⟨5, .port, [0x7F#8]⟩] :=
  ⟨{ asked [0x7F] with turns := [.caller 5, .loop, .caller 5] }, by decide⟩

theorem witness_WireBytesGoThroughSendByte :
    (engineRuns steady.phase = true ∧ engineRuns State.reset.phase = false) ∧
    (0x03#8 = perMode steady.cfg.cmdMode .m7x10 ∧ 0x00#8 = perMode steady.cfg.cmdMode .m4x13) ∧
    0x40#8 = steady.cfg.cmdDataAutoinc ∧ 0x42#8 = steady.cfg.cmdReadKeys ∧
    (0xC0#8 = addressAt steady.cfg steady.mode (0#4).toNat ∧
      0xCD#8 = addressAt steady.cfg steady.mode (13#4).toNat) ∧
    0x80#8 = steady.cfg.cmdBright[(0#4).toNat] ∧ 0x8F#8 = steady.cfg.cmdBright[(15#4).toNat] := by decide

theorem witness_DefaultWireBytesSendThemselves :
    decode .wire [0xCD] = .ok (.addr 13) ∧ steady.cfg = Config.defaultParams ∧
    engineRuns steady.phase = true := by decide

theorem witness_FrameStepShowsDigitsThenBanner :
    ∀ p ∈ [((0 : Fin 12), (1 : Fin 12)), (9, 10), (10, 11)],
      ∃ s : State, s.owner = .none ∧ s.turns = [.loop] ∧ s.phase = .startup p.1 ∧ s.stopReq = false ∧
        p.2.val = p.1.val + 1 := by
  intro p hp
  refine ⟨{ loopNext with phase := .startup p.1 }, rfl, rfl, rfl, rfl, ?_⟩
  fin_cases hp <;> rfl

theorem witness_LastFrameClearsAndEntersSteady :
    ∃ s : State, s.owner = .none ∧ s.turns = [.loop] ∧ s.phase = .startup 11 ∧ s.stopReq = false :=
  ⟨{ loopNext with phase := .startup 11 }, rfl, rfl, rfl, rfl⟩

theorem witness_TimeIterationShowsTheClock :
    ∃ s : State, s.owner = .none ∧ s.turns = [.loop] ∧ s.phase = .steady ∧ s.stopReq = false ∧
      s.timeMode = true :=
  ⟨{ loopNext with timeMode := true }, rfl, rfl, rfl, rfl, rfl⟩

theorem witness_ScanIterationQueuesAtMostOneKey :
    ∀ p ∈ [(scanAnswers [0, 0x10, 0, 0, 0], some 0x38#8), (scanAnswers [0, 0, 0, 0, 0], none)],
      ∃ s : State, s.owner = .none ∧ s.turns = [.loop] ∧ s.phase = .steady ∧ s.stopReq = false ∧
        s.timeMode = false ∧
        decodeKey s.cfg.keymap ((List.range 5).map (deviceByte s)) = p.2 := by
  intro p hp
  refine ⟨{ loopNext with deviceIn := p.1 }, rfl, rfl, rfl, rfl, rfl, ?_⟩
  revert p
  decide +kernel

theorem witness_StopRequestHaltsTheLoop :
    ∀ p ∈ [Phase.steady, .startup 0, .startup 11], ∃ s : State, s.owner = .none ∧
      s.turns = [.loop] ∧ s.phase = p ∧ loopActive s.phase = true ∧ s.stopReq = true := by
  intro p hp
  refine ⟨{ loopNext with phase := p, stopReq := true }, rfl, rfl, rfl, ?_, rfl⟩
  revert p
  decide

theorem witness_LoopRestsInOffFailedHalted :
    ∀ p ∈ [Phase.off, .failed, .halted], ∃ s : State, s.owner = .none ∧ s.turns = [.loop] ∧
      s.phase = p ∧ (s.phase = .off ∨ s.phase = .failed ∨ s.phase = .halted) := by
  intro p hp
  refine ⟨{ loopNext with phase := p }, rfl, rfl, rfl, ?_⟩
  revert p
  decide

theorem witness_StartupAnimationReachesSteady :
    ∃ s : State, s.owner = .none ∧ s.turns = List.replicate 12 .loop ++ [.caller 1] ∧
      s.phase = .startup 0 ∧ s.stopReq = false :=
  ⟨{ steady with phase := .startup 0, turns := List.replicate 12 .loop ++ [.caller 1] },
    rfl, rfl, rfl, rfl⟩

theorem witness_WithoutEngineOnlyStartAndStopSucceed :
    (State.reset.phase = .off ∧ ∀ f, Instr.stop ≠ .start f) ∧
    ({ State.reset with phase := .failed } : State).phase = .failed ∧
    (∀ f, Instr.getbrt ≠ .start f) ∧ Instr.getbrt ≠ .stop := by
  simp [State.reset]

theorem witness_FailuresLeaveTheStateAsItWas :
    (Instr.setmode 9 ≠ .stop ∨ engineRuns steady.phase = false) ∧
    (Instr.stop ≠ .stop ∨ engineRuns State.reset.phase = false) := by decide

theorem witness_UndecodableRequestIsMalformed :
    ∀ p ∈ [([0x05], DecodeError.unknownTag 0x05), ([], .emptyRequest), ([0x40, 0x00], .tooLong),
        ([0x41, 0x0A, 0x00], .tooShort)],
      (asked p.1).owner = .none ∧ (asked p.1).turns = [.caller 5] ∧
      Owner.caller 5 ∉ (asked p.1).stopWait ∧
      takeRequest 5 (asked p.1).pending = some (⟨5, .port, p.1⟩, []) ∧
      decode .port p.1 = .error p.2 := by decide

theorem witness_DecodeOfEncodeIsIdentity :
    ∀ i ∈ [Instr.addr 13, .addr 0, .setbrt (-2147483648), .setbrt 2147483647, .render [],
      .wrrawb (List.replicate 14 0xFF), .decodekey (List.replicate 5 0)], i.wf = true := by decide

theorem witness_EncodeOfDecodeIsIdentity :
    decode .port [0x45, 0x00, 0x00] = .ok (.settxt []) ∧ decode .wire [0xCD] = .ok (.addr 13) := by decide

theorem witness_StepServesTheDecodedRequest :
    ∃ s : State, s.owner = .none ∧ s.turns = [.caller 5] ∧ Owner.caller 5 ∉ s.stopWait ∧
      s.pending = [⟨1, .port, [0x46]⟩] ++ ⟨5, .port, [0x40]⟩ :: [⟨5, .port, [0x42]⟩] ∧
      (∀ q ∈ [(⟨1, .port, [0x46]⟩ : Request)], q.caller ≠ 5) ∧ decode .port [0x40] = .ok .getbrt :=
  ⟨{ asked [] with pending := [⟨1, .port, [0x46]⟩, ⟨5, .port, [0x40]⟩, ⟨5, .port, [0x42]⟩] }, by decide⟩

theorem witness_FetchWordIsServedNext :
    decodeTableWord 8 0x40 = some .getbrt ∧ decodeTableWord 16 0x0170 = some (.start 1) := by decide

theorem witness_HeldGrantLetsNothingBegin :
    ({ steady with owner := .loop } : State).owner ≠ .none := by decide

/-- The state after a GETBRT of caller 5 is served. -/
def answeredGetbrt : State :=
  { steady with responses := [⟨.caller 5, .ok, .b8 10⟩] }

theorem witness_StepKeepsStateInv :
    StateInv (asked [0x40]) ∧ step (asked [0x40]) = .next answeredGetbrt := by
  refine ⟨⟨rfl, fun _ => ⟨?_, ⟨rfl, rfl, rfl⟩, ?_⟩, ?_, ?_⟩, rfl⟩ <;> decide

theorem witness_StepKeepsTransactionsWhole :
    TraceWhole (asked [0x40]) ∧ step (asked [0x40]) = .next answeredGetbrt := ⟨rfl, rfl⟩

theorem witness_PinRegistersMirrorTheTrace :
    PinsMirror Pins.idle (asked [0x40]) ∧ step (asked [0x40]) = .next answeredGetbrt := ⟨rfl, rfl⟩

theorem witness_StepOnlyAppendsAndKeepsParameters :
    step (asked [0x40]) = .next answeredGetbrt := rfl

theorem witness_PhaseMovesOnlyByTheTable :
    step (asked [0x40]) = .next answeredGetbrt := rfl

theorem witness_OnlyNamedOperationsWriteTheSettings :
    (∃ t, exec .popkey steady = .next t) ∧ ∀ f, Instr.popkey ≠ .start f :=
  ⟨⟨_, rfl⟩, fun _ h => Instr.noConfusion h⟩

theorem witness_DeviceAnswersReachNoStateByRequests :
    (∃ t, exec .readbyte { steady with deviceIn := List.replicate 8 .one } = .next t) ∧
    ∃ u, exec .readbyte { steady with deviceIn := List.replicate 8 .undef, draws := 3 } = .next u :=
  ⟨⟨_, rfl⟩, _, rfl⟩

theorem witness_WrRegStoresAtItsAddressOnly :
    TraceWhole steady ∧ engineRuns steady.phase = true := ⟨rfl, rfl⟩

theorem witness_SetTxtStoresAtGridAddressesOnly :
    TraceWhole steady ∧ engineRuns steady.phase = true := ⟨rfl, rfl⟩

theorem witness_WrRawBStoresAtFourteenAddressesOnly :
    (List.replicate 14 0xFF#8).length = 14 ∧ TraceWhole steady ∧
    engineRuns steady.phase = true := ⟨rfl, rfl, rfl⟩

theorem witness_OtherRequestsReachNoDisplayRegister :
    TraceWhole steady ∧ (∃ t, exec .initseq steady = .next t) ∧
    (∀ a d, Instr.initseq ≠ .wrreg a d) ∧ Instr.initseq ≠ .wrgrid ∧ (∀ b, Instr.initseq ≠ .wrrawb b) ∧
    (∀ x, Instr.initseq ≠ .wrraw x) ∧ (∀ x, Instr.initseq ≠ .settxt x) ∧
    (∀ f, Instr.initseq ≠ .settm f) ∧ Instr.initseq ≠ .clrkeys :=
  ⟨rfl, ⟨_, rfl⟩, by simp⟩

end Sys2Proof.Tests
end

namespace Sys2Proof.Noninterference

open Sys2Proof.Machine Sys2Proof.Safety

/-! # The Device's answers reach no state of the block through a request (R5, R60)

Two states are alike when they are equal after `blinded`, which erases what the Device answers and every
place an answer may go: the sampled values of the trace and the values of the responses. Each operation
takes like states to like states, so each instruction does. -/

/-! ## Blinded events -/

theorem pinsApply_blindEvent (p : Pins) (e : PinEvent) : pinsApply p (blindEvent e) = pinsApply p e := by
  cases e <;> rfl

/-- The pin registers do not depend on the sampled values (R10). -/
theorem pinsAfter_map_blindEvent (p : Pins) (es : List PinEvent) :
    pinsAfter p (es.map blindEvent) = pinsAfter p es := by
  simp only [pinsAfter, List.foldl_map, pinsApply_blindEvent]

theorem map_blindEvent_readEvents (xs : List Sample) :
    (readEvents xs).map blindEvent = readEvents (List.replicate xs.length .undef) := by
  have hcell : ∀ x, (readCell x).map blindEvent = readCell .undef := fun _ => rfl
  rw [← List.map_const']
  simp only [readEvents, List.map_flatMap, List.flatMap_map, hcell]

/-- Read bytes differ in their samples only: blinded, their events depend on their number alone. -/
theorem map_blindEvent_readByteEvents (n : Nat) (s : State) :
    (readByteEvents n s).map blindEvent = readEvents (List.replicate (8 * n) .undef) := by
  rw [readByteEvents, map_blindEvent_readEvents, List.length_map, List.length_range]

/-! ## Blinded states -/

/-- `s` without the Device's answers, the count of free values, the sampled values of the trace, and the
responses. -/
def blinded (s : State) : State :=
  { s with deviceIn := [], draws := 0, trace := s.trace.map blindEvent, responses := [] }

@[simp] theorem blinded_phase (s : State) : (blinded s).phase = s.phase := rfl

theorem blinded_emit (es : List PinEvent) (s : State) :
    blinded (emit es s) = emit (es.map blindEvent) (blinded s) := by
  simp [blinded, emit, pinsAfter_map_blindEvent]

@[simp] theorem blinded_usedSamples (n : Nat) (s : State) : blinded (usedSamples n s) = blinded s := rfl

@[simp] theorem blinded_respond (st : Status) (v : Value) (s : State) :
    blinded (respond st v s) = blinded s := rfl

/-! ## Operations that take like states to like states -/

/-- `f` takes states that are alike to states that are alike. -/
def KeepsAlike (f : State → State) : Prop :=
  ∀ s u : State, blinded s = blinded u → blinded (f s) = blinded (f u)

namespace KeepsAlike

variable {f g : State → State}

theorem comp (hg : KeepsAlike g) (hf : KeepsAlike f) : KeepsAlike fun s => g (f s) :=
  fun s u h => hg _ _ (hf s u h)

/-- An update that reads and writes only what `blinded` keeps. -/
theorem ofCommutes (h : ∀ s, blinded (f s) = f (blinded s)) : KeepsAlike f := by
  intro s u hsu
  rw [h, h, hsu]

theorem same : KeepsAlike fun s => s := ofCommutes fun _ => rfl

/-- Emitting events that depend on the Device's answers in their sampled values only. -/
theorem emit {E : State → List PinEvent}
    (hE : ∀ s, (E s).map blindEvent = (E (blinded s)).map blindEvent) :
    KeepsAlike fun s => Machine.emit (E s) s := by
  intro s u h
  rw [blinded_emit, blinded_emit, hE s, hE u, h]

/-- A response adds to `responses` only, which `blinded` erases: its value may be anything. -/
theorem respond (st : Status) {v : State → Value} (hf : KeepsAlike f) :
    KeepsAlike fun s => Machine.respond st (v s) (f s) := by
  simpa only [KeepsAlike, blinded_respond] using hf

/-- A case split on the phase. -/
theorem byPhase {F : Phase → State → State} (hF : ∀ p, KeepsAlike (F p)) :
    KeepsAlike fun s => F s.phase s := by
  intro s u h
  have hp : s.phase = u.phase := by rw [← blinded_phase s, h, blinded_phase]
  dsimp only
  rw [hp]
  exact hF _ s u h

theorem sendByteOf {B : State → Byte} (hB : ∀ s, B s = B (blinded s)) :
    KeepsAlike fun s => sendByte (B s) s :=
  emit fun s => by rw [hB s]

theorem wrGrid : KeepsAlike wrGrid := emit fun _ => rfl

theorem initSeq : KeepsAlike initSeq := emit fun _ => rfl

theorem wrRawB (b : List Byte) : KeepsAlike (wrRawB b) := emit fun _ => rfl

theorem showText (t : Str) : KeepsAlike (showText t) :=
  wrGrid.comp (ofCommutes fun _ => rfl)

theorem clearDisp : KeepsAlike clearDisp :=
  wrGrid.comp (ofCommutes fun _ => rfl)

/-- READBYTE: the byte goes to the response, the samples to the trace (R102). -/
theorem readByte : KeepsAlike fun s => (readByte s).2 := by
  have hread : KeepsAlike fun s => Machine.emit (readByteEvents 1 s) s :=
    emit fun s => by rw [map_blindEvent_readByteEvents, map_blindEvent_readByteEvents]
  simpa only [KeepsAlike, readByte_eq, blinded_usedSamples] using hread

/-- SCANKEYS: the bytes go to the response, the samples to the trace (R140). -/
theorem scanKeys : KeepsAlike fun s => (scanKeys s).2 := by
  have hscan : KeepsAlike fun s => Machine.emit (scanEvents s) s := emit fun s => by
    simp only [scanEvents, List.map_append, map_blindEvent_readByteEvents]
    rfl
  simpa only [KeepsAlike, scanKeys_eq, blinded_usedSamples] using hscan

/-- SETTM off draws the stored text, which like states share (R179). -/
theorem setTimeMode (f : Bool) : KeepsAlike (setTimeMode f) := by
  have hflag : KeepsAlike fun s => { s with timeMode := f } := ofCommutes fun _ => rfl
  cases f with
  | true => exact hflag
  | false =>
    have hdraw : KeepsAlike fun s => Machine.showText s.text s :=
      wrGrid.comp (ofCommutes (f := fun s => setGrid (renderGrid s.cfg s.mode s.text) s) fun _ => rfl)
    exact hdraw.comp hflag

theorem startEngine : KeepsAlike startEngine := by
  have hidle : KeepsAlike (Machine.emit idleEvents) := emit fun _ => rfl
  have hreset : KeepsAlike startReset := (ofCommutes (f := engineDefaults) fun _ => rfl).comp hidle
  have hphase : KeepsAlike fun s => { s with phase := .startup 0 } := ofCommutes fun _ => rfl
  exact hphase.comp (initSeq.comp hreset)

end KeepsAlike

/-! ## Instructions -/

/-- `m` always goes on, and takes states that are alike to states that are alike. -/
def GoesOnAlike (m : State → Host.Outcome State Fault Refusal) : Prop :=
  ∃ f, (∀ s, m s = .next (f s)) ∧ KeepsAlike f

theorem GoesOnAlike.blinded_eq {m : State → Host.Outcome State Fault Refusal} (hm : GoesOnAlike m)
    {s s' t u : State} (h : blinded s = blinded s') (ht : m s = .next t) (hu : m s' = .next u) :
    blinded u = blinded t := by
  obtain ⟨f, hf, hkeeps⟩ := hm
  rw [hf, Host.Outcome.next.injEq] at ht hu
  rw [← ht, ← hu, hkeeps s s' h]

/-- The envelope reads the phase only (R175). -/
theorem GoesOnAlike.serve {body : State → State} (hb : KeepsAlike body) :
    GoesOnAlike (Machine.serve body) := by
  refine ⟨_, fun _ => rfl, .byPhase
    (F := fun p s => if engineRuns p then body s else fail .eNotRunning s) fun p => ?_⟩
  cases engineRuns p with
  | true => exact hb
  | false => exact .respond _ .same

/-- A request that the envelope performs and answers OK. -/
theorem GoesOnAlike.ok {work : State → State} {v : State → Value} (hw : KeepsAlike work) :
    GoesOnAlike (Machine.serve fun s => respondOk (v s) (work s)) :=
  .serve (.respond .ok hw)

theorem execSetmode_goesOnAlike (sel : Byte) : GoesOnAlike (execSetmode sel) := by
  refine .serve ?_
  cases modeOfSel sel with
  | none => exact .respond _ .same
  | some m => exact .respond _ (KeepsAlike.initSeq.comp (.ofCommutes fun _ => rfl))

theorem execWrraw_goesOnAlike (t : Str) : GoesOnAlike (execWrraw t) := by
  refine .serve ?_
  cases hexBytes t with
  | none => exact .respond _ .same
  | some b => exact .respond _ (.wrRawB b)

/-- START reads the phase and its operand (R188). -/
theorem execStart_goesOnAlike (linesOk : Byte) : GoesOnAlike (execStart linesOk) := by
  refine ⟨_, fun _ => rfl, .byPhase (F := fun p s =>
    if p ≠ .off then fail .eAlreadyRunning s
    else if isOn linesOk then respondOk .none (startEngine s)
    else fail .eFatalLines { s with phase := .failed }) fun p => ?_⟩
  split
  · exact .respond _ .same
  · split
    · exact .respond _ .startEngine
    · exact .respond _ (.ofCommutes fun _ => rfl)

/-- STOP's first operation reads the phase and the holder of the grant (R189). -/
theorem execStop_goesOnAlike : GoesOnAlike execStop := by
  refine ⟨_, fun _ => rfl, .byPhase (F := fun p s =>
    match p with
    | .off => fail .eNotRunning s
    | .failed => respondOk .none { s with phase := .off }
    | .startup _ | .steady | .halted =>
      { s with stopReq := true, stopWait := s.stopWait ++ [s.owner] }) fun p => ?_⟩
  cases p with
  | off => exact .respond _ .same
  | failed => exact .respond _ (.ofCommutes fun _ => rfl)
  | startup | steady | halted => exact .ofCommutes fun _ => rfl

theorem exec_goesOnAlike (i : Instr) : GoesOnAlike (exec i) := by
  cases i with
  | readbyte => exact .ok .readByte
  | scankeys => exact .ok .scanKeys
  | start linesOk => exact execStart_goesOnAlike linesOk
  | stop => exact execStop_goesOnAlike
  | setmode sel => exact execSetmode_goesOnAlike sel
  | wrraw t => exact execWrraw_goesOnAlike t
  | settm f => exact .ok (.setTimeMode (isOn f))
  | settxt t => exact .ok ((KeepsAlike.showText t).comp (.ofCommutes fun _ => rfl))
  | setbrt v => exact .ok (KeepsAlike.initSeq.comp (.ofCommutes fun _ => rfl))
  | clrkeys => exact .ok (KeepsAlike.clearDisp.comp (.ofCommutes fun _ => rfl))
  | popkey => exact .ok (.ofCommutes fun _ => rfl)
  | pushkey c => exact .ok (.ofCommutes fun _ => rfl)
  | initseq => exact .ok .initSeq
  | wrgrid => exact .ok .wrGrid
  | wrrawb b => exact .ok (.wrRawB b)
  | wrreg a d => exact .ok (.emit fun _ => rfl)
  | sendcmd c => exact .ok (.emit fun _ => rfl)
  | sendbyte | cmdMode | cmdDataAutoinc | cmdReadKeys | addr | cmdBright =>
    exact .ok (.sendByteOf fun _ => rfl)
  | char2seg | render | decodekey | getbrt | gettm | gettxt | getmode | showkeys => exact .ok .same

/-- Settles O52: the two states are alike, and every instruction takes like states to like states. -/
theorem deviceAnswersReachNoStateByRequests : Obligations.DeviceAnswersReachNoStateByRequests := by
  unfold Obligations.DeviceAnswersReachNoStateByRequests
  intro i xs n s t u ht hu
  have halike : blinded s = blinded { s with deviceIn := xs, draws := n } := rfl
  have h : blinded u = blinded t := (exec_goesOnAlike i).blinded_eq halike ht hu
  simp only [blinded, State.mk.injEq] at h
  obtain ⟨hmode, hbrightness, hgrid, htext, htimeMode, hqueue, hpins, hphase, hstopReq, -, -, -,
    hstopWait, -, -, -, -, -, htrace, -⟩ := h
  exact ⟨hmode, hbrightness, hgrid, htext, htimeMode, hqueue, hpins, hphase, hstopReq, hstopWait,
    htrace⟩

end Sys2Proof.Noninterference

namespace Sys2Proof.StepEffects

open Sys2Proof.Machine Sys2Proof.Safety

/-! # What one step can do to phase, trace, pins and responses

`step_cases` splits a step by the agent whose turn it is. Here each of its cases is inverted once: a
request that is performed (`exec_performed`), a step of the loop (`loopStep_phase`, beside
`loopStep_worked`), the second operation of a STOP (`resumeStop_cases`). The invariants of a step follow
from these. -/

/-! ## A request that is performed -/

/-- Everything that performing an instruction can do (R175, R188, R189, R205). -/
inductive Performed (s : State) : State → Prop where
  | answered (st : Status) (v : Value) {w : State} (hwork : Worked s w) : Performed s (respond st v w)
  | linesRefused (hoff : s.phase = .off) :
      Performed s (respond .eFatalLines .none { s with phase := .failed })
  | started (hoff : s.phase = .off) : Performed s (respond .ok .none (startEngine s))
  | failureCleared (hfailed : s.phase = .failed) :
      Performed s (respond .ok .none { s with phase := .off })
  | stopRequested (hruns : engineRuns s.phase = true) :
      Performed s { s with stopReq := true, stopWait := s.stopWait ++ [s.owner] }

theorem execStart_performed (f : Byte) (s : State) :
    ∃ t, exec (.start f) s = .next t ∧ Performed s t := by
  rcases execStart_cases f s with ⟨-, he⟩ | ⟨hoff, -, he⟩ | ⟨hoff, -, he⟩
  · exact ⟨_, he, .answered _ _ (.refl s)⟩
  · exact ⟨_, he, .linesRefused hoff⟩
  · exact ⟨_, he, .started hoff⟩

theorem execStop_performed (s : State) : ∃ t, exec .stop s = .next t ∧ Performed s t := by
  rcases execStop_cases s with ⟨-, he⟩ | ⟨hfailed, he⟩ | ⟨hruns, he⟩
  · exact ⟨_, he, .answered _ _ (.refl s)⟩
  · exact ⟨_, he, .failureCleared hfailed⟩
  · exact ⟨_, he, .stopRequested hruns⟩

theorem exists_exec_performed (i : Instr) (s : State) : ∃ t, exec i s = .next t ∧ Performed s t := by
  by_cases hstart : ∃ f, i = .start f
  · obtain ⟨f, rfl⟩ := hstart
    exact execStart_performed f s
  by_cases hstop : i = .stop
  · subst hstop
    exact execStop_performed s
  have hstart' : ∀ f, i ≠ .start f := fun f hf => hstart ⟨f, hf⟩
  cases hruns : engineRuns s.phase with
  | false => exact ⟨_, exec_not_running i s hruns hstart' hstop, .answered _ _ (.refl s)⟩
  | true =>
    obtain ⟨st, v, w, he, hwork, -⟩ := exec_served i s hruns hstart' hstop
    exact ⟨_, he, .answered st v hwork⟩

theorem exec_performed {i : Instr} {s t : State} (h : exec i s = .next t) : Performed s t := by
  obtain ⟨u, he, hu⟩ := exists_exec_performed i s
  obtain rfl : t = u := Host.Outcome.next.inj (h.symm.trans he)
  exact hu

/-! ## The second operation of a STOP -/

/-- The state in which caller `c` finishes its STOP: it waits no more and holds the grant. -/
def resumed (c : Nat) (s : State) : State :=
  takeGrant (.caller c) { s with stopWait := s.stopWait.erase (.caller c) }

/-- What the second operation of STOP can do (R189): it waits on, or another STOP finished first, or it
brings the halted block to Off. -/
theorem resumeStop_cases (c : Nat) (s : State) :
    resumeStop c s = s ∨
    (s.phase = .off ∧ resumeStop c s = release (respond .eNotRunning .none (resumed c s))) ∨
    (s.phase = .halted ∧ resumeStop c s =
      release (respond .ok .none
        { emit idleEvents (resumed c s) with phase := .off, stopReq := false })) := by
  cases h : s.phase <;>
    simp [resumeStop, stopReady, stopSecond, h, fail, respondOk, resumed]

/-! ## The phase under a step of the loop -/

/-- The phase after frame `k` (R156, R157). -/
def frameNext (k : Fin 12) : Phase :=
  if h : k.val + 1 < 12 then .startup ⟨k.val + 1, h⟩ else .steady

theorem frameStep_phase (k : Fin 12) (s : State) : (frameStep k s).phase = frameNext k := by
  fin_cases k <;> rfl

theorem queueKey_eq (key : Option Chr) (s : State) : ∃ q, queueKey key s = { s with queue := q } := by
  cases key with
  | none => exact ⟨s.queue, rfl⟩
  | some c => exact ⟨_, rfl⟩

/-- A scan iteration reads the keys and may write the queue (R160). -/
theorem scanIter_eq (s : State) : ∃ q, scanIter s =
    pacing .scanPause (release { (scanKeys (takeGrant .loop s)).2 with queue := q }) := by
  obtain ⟨q, hq⟩ := queueKey_eq (decodeKey s.cfg.keymap (scanKeys (takeGrant .loop s)).1)
    (scanKeys (takeGrant .loop s)).2
  exact ⟨q, congrArg (fun u => pacing .scanPause (release u)) hq⟩

theorem timeIter_phase (s : State) : (timeIter s).phase = s.phase :=
  (Worked.clock (takeGrant .loop s)).phase

theorem scanIter_phase (s : State) : (scanIter s).phase = s.phase := by
  obtain ⟨q, hq⟩ := scanIter_eq s
  have hscan : (scanKeys (takeGrant .loop s)).2.phase = s.phase :=
    (Worked.scanKeys (takeGrant .loop s)).phase
  rw [hq, pacing, emit_phase, release_phase, hscan]

/-- How a step of the loop moves the phase (R155 to R162). -/
inductive LoopMove (s : State) : Phase → Prop where
  | stays : LoopMove s s.phase
  | halts (hreq : s.stopReq = true) (hactive : loopActive s.phase = true) : LoopMove s .halted
  | frame (k : Fin 12) (hk : s.phase = .startup k) : LoopMove s (frameNext k)

theorem LoopMove.of_eq {s : State} {p : Phase} (h : p = s.phase) : LoopMove s p := h ▸ .stays

theorem loopStep_phase (s : State) : LoopMove s (loopStep s).phase := by
  unfold loopStep
  split
  · next k hk =>
    split
    · next hreq => exact .halts hreq (by rw [hk]; rfl)
    · rw [frameStep_phase]
      exact .frame k hk
  · next hsteady =>
    split
    · next hreq => exact .halts hreq (by rw [hsteady]; rfl)
    · split
      · exact .of_eq (timeIter_phase s)
      · exact .of_eq (scanIter_phase s)
  all_goals exact .stays

/-! ## The phase moves by the table of R31 -/

theorem phaseMove_refl (p : Phase) : PhaseMove p p := by
  cases p <;> simp [PhaseMove]

theorem phaseMove_of_eq {p q : Phase} (h : q = p) : PhaseMove p q := h ▸ phaseMove_refl p

theorem phaseMove_frameNext (k : Fin 12) : PhaseMove (.startup k) (frameNext k) := by
  unfold frameNext
  split
  · exact .inr (.inr (.inl ⟨_, rfl, rfl⟩))
  · exact .inr (.inr (.inr ⟨by omega, rfl⟩))

theorem phaseMove_halted {p : Phase} (h : loopActive p = true) : PhaseMove p .halted := by
  cases p with
  | startup k => exact .inr (.inl rfl)
  | steady => exact .inr rfl
  | off | failed | halted => cases h

theorem LoopMove.phaseMove {s : State} {p : Phase} (h : LoopMove s p) : PhaseMove s.phase p := by
  cases h with
  | stays => exact phaseMove_refl _
  | halts _ hactive => exact phaseMove_halted hactive
  | frame k hk => rw [hk]; exact phaseMove_frameNext k

theorem Performed.phaseMove {s t : State} (h : Performed s t) : PhaseMove s.phase t.phase := by
  cases h with
  | answered st v hwork => exact phaseMove_of_eq hwork.phase
  | linesRefused hoff => rw [hoff]; exact .inr (.inr rfl)
  | started hoff => rw [hoff]; exact .inr (.inl rfl)
  | failureCleared hfailed => rw [hfailed]; exact .inr rfl
  | stopRequested => exact phaseMove_refl _

theorem resumeStop_phaseMove (c : Nat) (s : State) : PhaseMove s.phase (resumeStop c s).phase := by
  rcases resumeStop_cases c s with he | ⟨-, he⟩ | ⟨hhalted, he⟩ <;> rw [he]
  · exact phaseMove_refl _
  · exact phaseMove_refl s.phase
  · rw [hhalted]; exact .inr rfl

/-- Settles O50, by the cases of a step. -/
theorem phaseMovesOnlyByTheTable : Obligations.PhaseMovesOnlyByTheTable := by
  unfold Obligations.PhaseMovesOnlyByTheTable
  intro s t h
  rcases step_cases h with ⟨-, rfl⟩ | ⟨-, l, n, rfl | rfl | ⟨c, -, rfl⟩ | ⟨c, rest, rfl⟩ |
    ⟨c, rest, i, u, hexec, rfl⟩⟩
  · exact phaseMove_refl _
  · exact phaseMove_refl s.phase
  · exact (loopStep_phase (turned s l n)).phaseMove
  · exact resumeStop_phaseMove c (turned s l n)
  · exact phaseMove_refl s.phase
  · exact (exec_performed hexec).phaseMove

/-! ## The observations only grow -/

/-- `t` comes from `s` with the parameters kept, responses only added, and clean events added that the
pin registers follow (R6, R30, R34). -/
structure Extends (s t : State) : Prop where
  cfg : t.cfg = s.cfg
  responses : s.responses <+: t.responses
  events : ∃ es, t.trace = s.trace ++ es ∧ t.pins = pinsAfter s.pins es ∧ CleanEvents es

namespace Extends

variable {s t u : State}

/-- An update of none of the four fields. -/
theorem ofSame (hcfg : t.cfg = s.cfg) (hresponses : t.responses = s.responses)
    (htrace : t.trace = s.trace) (hpins : t.pins = s.pins) : Extends s t :=
  ⟨hcfg, hresponses ▸ List.prefix_rfl, [], by simp [htrace], hpins, .nil⟩

theorem trans (h : Extends s t) (k : Extends t u) : Extends s u := by
  obtain ⟨es, htrace, hpins, hclean⟩ := h.events
  obtain ⟨fs, ktrace, kpins, kclean⟩ := k.events
  exact ⟨k.cfg.trans h.cfg, h.responses.trans k.responses, es ++ fs,
    by rw [ktrace, htrace, List.append_assoc], by rw [kpins, hpins, pinsAfter_append],
    hclean.append kclean⟩

theorem ofWorked (h : Worked s t) : Extends s t :=
  ⟨h.cfg, h.responses ▸ List.prefix_rfl, h.events⟩

theorem respond (st : Status) (v : Value) (s : State) : Extends s (Machine.respond st v s) :=
  ⟨rfl, List.prefix_append _ _, [], by simp, rfl, .nil⟩

theorem withPhase (p : Phase) (s : State) : Extends s { s with phase := p } := ofSame rfl rfl rfl rfl

theorem emit {es : List PinEvent} (h : CleanEvents es) (s : State) : Extends s (Machine.emit es s) :=
  ofWorked (.emit h s)

/-- START sends the idle lines and then INITSEQ (R188). -/
theorem startEngine (s : State) : Extends s (Machine.startEngine s) := by
  have hidle : Extends s (Machine.emit idleEvents s) := emit .idle s
  have hreset : Extends (Machine.emit idleEvents s) (startReset s) := ofSame rfl rfl rfl rfl
  have hinit : Extends (startReset s) (initSeq (startReset s)) := ofWorked (.initSeq _)
  exact ((hidle.trans hreset).trans hinit).trans (ofSame rfl rfl rfl rfl)

theorem ofPerformed (h : Performed s t) : Extends s t := by
  cases h with
  | answered st v hwork => exact (ofWorked hwork).trans (respond st v _)
  | linesRefused => exact (withPhase .failed s).trans (respond _ _ _)
  | failureCleared => exact (withPhase .off s).trans (respond _ _ _)
  | started => exact (startEngine s).trans (respond _ _ _)
  | stopRequested => exact ofSame rfl rfl rfl rfl

theorem loopStep (ho : s.owner = .none) : Extends s (Machine.loopStep s) :=
  (ofWorked (loopStep_worked s ho)).trans (ofSame rfl rfl rfl rfl)

theorem release (s : State) : Extends s (Machine.release s) := ofSame rfl rfl rfl rfl

theorem resumeStop (c : Nat) (s : State) : Extends s (Machine.resumeStop c s) := by
  have hresumed : Extends s (resumed c s) := ofSame rfl rfl rfl rfl
  rcases resumeStop_cases c s with he | ⟨-, he⟩ | ⟨-, he⟩ <;> rw [he]
  · exact ofSame rfl rfl rfl rfl
  · exact (hresumed.trans (respond _ _ _)).trans (release _)
  · have hidle : Extends s (Machine.emit idleEvents (resumed c s)) := hresumed.trans (emit .idle _)
    have hoff : Extends s { Machine.emit idleEvents (resumed c s) with
        phase := .off, stopReq := false } := hidle.trans (ofSame rfl rfl rfl rfl)
    exact (hoff.trans (respond _ _ _)).trans (release _)

end Extends

theorem step_extends {s t : State} (h : step s = .next t) : Extends s t := by
  rcases step_cases h with ⟨-, rfl⟩ | ⟨ho, l, n, rfl | rfl | ⟨c, -, rfl⟩ | ⟨c, rest, rfl⟩ |
    ⟨c, rest, i, u, hexec, rfl⟩⟩
  · exact .ofSame rfl rfl rfl rfl
  · exact .ofSame rfl rfl rfl rfl
  · have hturned : Extends s (turned s l n) := .ofSame rfl rfl rfl rfl
    exact hturned.trans (.loopStep ho)
  · have hturned : Extends s (turned s l n) := .ofSame rfl rfl rfl rfl
    exact hturned.trans (.resumeStop c _)
  · have hgranted : Extends s (granted s l n c rest) := .ofSame rfl rfl rfl rfl
    exact (hgranted.trans (.respond _ _ _)).trans (.release _)
  · have hgranted : Extends s (granted s l n c rest) := .ofSame rfl rfl rfl rfl
    exact (hgranted.trans (.ofPerformed (exec_performed hexec))).trans (.release _)

/-- Settles O49: a step extends. -/
theorem stepOnlyAppendsAndKeepsParameters : Obligations.StepOnlyAppendsAndKeepsParameters := by
  unfold Obligations.StepOnlyAppendsAndKeepsParameters
  intro s t h
  obtain ⟨hcfg, hresponses, es, htrace, -, -⟩ := step_extends h
  exact ⟨htrace ▸ List.prefix_append _ _, hresponses, hcfg⟩

/-- Settles O48: the pins follow the events that the step adds. -/
theorem pinRegistersMirrorTheTrace : Obligations.PinRegistersMirrorTheTrace := by
  unfold Obligations.PinRegistersMirrorTheTrace PinsMirror
  intro p s t hmirror h
  obtain ⟨-, -, es, htrace, hpins, -⟩ := step_extends h
  rw [hpins, htrace, pinsAfter_append, hmirror]

/-! # The invariant of R36 and of the stop protocol

`StateInv` says that nobody holds the grant and three things more. These three hold inside an operation
too, where somebody does, so they are the invariant that each operation keeps. -/

/-- `StateInv` without its first clause: what holds whoever has the grant. -/
structure OperationInv (s : State) : Prop where
  engine : engineRuns s.phase = true → EngineInv s
  request : s.stopReq = true → engineRuns s.phase = true ∧ s.stopWait ≠ []
  halt : s.phase = .halted → s.stopReq = true

theorem stateInv_iff (s : State) : StateInv s ↔ s.owner = .none ∧ OperationInv s :=
  ⟨fun ⟨ho, he, hr, hh⟩ => ⟨ho, he, hr, hh⟩, fun ⟨ho, he, hr, hh⟩ => ⟨ho, he, hr, hh⟩⟩

namespace OperationInv

variable {s t : State}

theorem ofWorked (h : OperationInv s) (hwork : Worked s t) : OperationInv t where
  engine hruns := hwork.inv (h.engine (hwork.phase ▸ hruns))
  request hreq := by
    rw [hwork.phase, hwork.stopWait]
    exact h.request (hwork.stopReq ▸ hreq)
  halt hhalted := hwork.stopReq.trans (h.halt (hwork.phase ▸ hhalted))

/-- Where no engine runs, all that is asked is that no stop request stands. -/
theorem ofNoEngine (hruns : engineRuns t.phase = false) (hreq : t.stopReq = false) :
    OperationInv t where
  engine h := absurd h (by simp [hruns])
  request h := absurd h (by simp [hreq])
  halt h := absurd hruns (by simp [h, engineRuns])

theorem no_request (h : OperationInv s) (hruns : engineRuns s.phase = false) : s.stopReq = false := by
  refine Bool.eq_false_iff.mpr fun hreq => ?_
  have hruns' : engineRuns s.phase = true := (h.request hreq).1
  simp [hruns] at hruns'

theorem respond (h : OperationInv s) (st : Status) (v : Value) :
    OperationInv (Machine.respond st v s) := ⟨h.engine, h.request, h.halt⟩

end OperationInv

/-- START leaves the queue and Grid empty and the lines at rest, INITSEQ keeps that (R36, R188). -/
theorem startEngine_engineInv (s : State) : EngineInv (startEngine s) := by
  have hreset : EngineInv (startReset s) :=
    ⟨Nat.zero_le _, ⟨rfl, rfl, rfl⟩, fun i _ => blankGrid_get i⟩
  exact (Worked.initSeq (startReset s)).inv hreset

theorem startEngine_operationInv (s : State) : OperationInv (startEngine s) where
  engine _ := startEngine_engineInv s
  request h := by cases h
  halt h := by cases h

theorem Performed.operationInv {s t : State} (hp : Performed s t) (h : OperationInv s) :
    OperationInv t := by
  cases hp with
  | answered st v hwork => exact (h.ofWorked hwork).respond st v
  | linesRefused hoff => exact .ofNoEngine rfl (h.no_request (by rw [hoff]; rfl))
  | started => exact (startEngine_operationInv s).respond _ _
  | failureCleared hfailed => exact .ofNoEngine rfl (h.no_request (by rw [hfailed]; rfl))
  | stopRequested hruns => exact ⟨h.engine, fun _ => ⟨hruns, by simp⟩, fun _ => rfl⟩

theorem engineRuns_of_loopActive {p : Phase} (h : loopActive p = true) : engineRuns p = true := by
  cases p with
  | startup | steady => rfl
  | off | failed | halted => cases h

theorem LoopMove.engineRuns_eq {s : State} {p : Phase} (h : LoopMove s p) :
    engineRuns p = engineRuns s.phase := by
  cases h with
  | stays => rfl
  | halts _ hactive => exact (engineRuns_of_loopActive hactive).symm
  | frame k hk => rw [hk]; fin_cases k <;> rfl

theorem LoopMove.stopReq_of_halted {s : State} {p : Phase} (h : LoopMove s p) (hp : p = .halted)
    (hinv : OperationInv s) : s.stopReq = true := by
  cases h with
  | stays => exact hinv.halt hp
  | halts hreq => exact hreq
  | frame k => fin_cases k <;> cases hp

theorem loopStep_operationInv {s : State} (ho : s.owner = .none) (h : OperationInv s) :
    OperationInv (loopStep s) := by
  have hwork : Worked s { loopStep s with phase := s.phase } := loopStep_worked s ho
  have hmove : LoopMove s (loopStep s).phase := loopStep_phase s
  have hruns : engineRuns (loopStep s).phase = engineRuns s.phase := hmove.engineRuns_eq
  have hkept : OperationInv { loopStep s with phase := s.phase } := h.ofWorked hwork
  exact {
    engine := fun hr => hkept.engine (hruns ▸ hr)
    request := fun hreq => by
      rw [hruns]
      exact hkept.request hreq
    halt := fun hhalted => hwork.stopReq.trans (hmove.stopReq_of_halted hhalted h) }

theorem resumeStop_operationInv (c : Nat) {s : State} (h : OperationInv s) :
    OperationInv (resumeStop c s) := by
  rcases resumeStop_cases c s with he | ⟨hoff, he⟩ | ⟨-, he⟩ <;> rw [he]
  · exact h
  · have hruns : engineRuns s.phase = false := by rw [hoff]; rfl
    exact .ofNoEngine hruns (h.no_request hruns)
  · exact .ofNoEngine rfl rfl

theorem loopStep_owner {s : State} (ho : s.owner = .none) : (loopStep s).owner = .none :=
  (loopStep_worked s ho).owner.trans ho

theorem resumeStop_owner (c : Nat) {s : State} (ho : s.owner = .none) :
    (resumeStop c s).owner = .none := by
  rcases resumeStop_cases c s with he | ⟨-, he⟩ | ⟨-, he⟩ <;> rw [he]
  · exact ho
  · rfl
  · rfl

/-- Settles O45: each operation keeps `OperationInv` and gives the grant back. -/
theorem stepKeepsStateInv : Obligations.StepKeepsStateInv := by
  unfold Obligations.StepKeepsStateInv
  intro s t hs h
  obtain ⟨ho, hinv⟩ := (stateInv_iff s).mp hs
  refine (stateInv_iff t).mpr ?_
  have hturned : ∀ l n, OperationInv (turned s l n) := fun _ _ =>
    ⟨hinv.engine, hinv.request, hinv.halt⟩
  have hgranted : ∀ l n c rest, OperationInv (granted s l n c rest) := fun _ _ _ _ =>
    ⟨hinv.engine, hinv.request, hinv.halt⟩
  have hreleased : ∀ {u : State}, OperationInv u → OperationInv (release u) := fun hu =>
    ⟨hu.engine, hu.request, hu.halt⟩
  rcases step_cases h with ⟨-, rfl⟩ | ⟨-, l, n, rfl | rfl | ⟨c, -, rfl⟩ | ⟨c, rest, rfl⟩ |
    ⟨c, rest, i, u, hexec, rfl⟩⟩
  · exact ⟨ho, hinv⟩
  · exact ⟨ho, hturned l n⟩
  · exact ⟨loopStep_owner ho, loopStep_operationInv ho (hturned l n)⟩
  · exact ⟨resumeStop_owner c ho, resumeStop_operationInv c (hturned l n)⟩
  · exact ⟨rfl, hreleased ((hgranted l n c rest).respond _ _)⟩
  · exact ⟨rfl, hreleased ((exec_performed hexec).operationInv (hgranted l n c rest))⟩

end Sys2Proof.StepEffects

namespace Sys2Proof.SettingWrites

open Sys2Proof.Machine Sys2Proof.Safety Sys2Proof.StepEffects

/-! # Which operations write mode, brightness, text, time mode, Grid and queue (R21 to R26) -/

/-- The six fields of R20 that the control surface reads and writes. -/
structure Settings where
  mode : Mode
  brightness : Fin 16
  text : Str
  timeMode : Bool
  grid : Vector Byte 7
  queue : List Chr

def settingsOf (s : State) : Settings :=
  ⟨s.mode, s.brightness, s.text, s.timeMode, s.grid, s.queue⟩

/-! ## What each operation does to the settings -/

@[simp] theorem settingsOf_emit (es : List PinEvent) (s : State) :
    settingsOf (emit es s) = settingsOf s := rfl

@[simp] theorem settingsOf_respondOk (v : Value) (s : State) :
    settingsOf (respondOk v s) = settingsOf s := rfl

@[simp] theorem settingsOf_fail (st : Status) (s : State) : settingsOf (fail st s) = settingsOf s := rfl

@[simp] theorem settingsOf_takeGrant (o : Owner) (s : State) :
    settingsOf (takeGrant o s) = settingsOf s := rfl

@[simp] theorem settingsOf_release (s : State) : settingsOf (release s) = settingsOf s := rfl

@[simp] theorem settingsOf_usedSamples (n : Nat) (s : State) :
    settingsOf (usedSamples n s) = settingsOf s := rfl

@[simp] theorem settingsOf_usedClock (s : State) : settingsOf (usedClock s) = settingsOf s := by
  unfold usedClock
  cases s.clockIn <;> rfl

@[simp] theorem settingsOf_sendByte (b : Byte) (s : State) :
    settingsOf (sendByte b s) = settingsOf s := settingsOf_emit _ s

@[simp] theorem settingsOf_sendCmd (c : Byte) (s : State) :
    settingsOf (sendCmd c s) = settingsOf s := settingsOf_emit _ s

@[simp] theorem settingsOf_wrReg (a d : Byte) (s : State) :
    settingsOf (wrReg a d s) = settingsOf s := settingsOf_emit _ s

@[simp] theorem settingsOf_wrGrid (s : State) : settingsOf (wrGrid s) = settingsOf s :=
  settingsOf_emit _ s

@[simp] theorem settingsOf_wrRawB (b : List Byte) (s : State) :
    settingsOf (wrRawB b s) = settingsOf s := settingsOf_emit _ s

@[simp] theorem settingsOf_initSeq (s : State) : settingsOf (initSeq s) = settingsOf s :=
  settingsOf_emit _ s

@[simp] theorem settingsOf_readByte (s : State) : settingsOf (readByte s).2 = settingsOf s := by
  rw [readByte_eq, settingsOf_usedSamples, settingsOf_emit]

@[simp] theorem settingsOf_scanKeys (s : State) : settingsOf (scanKeys s).2 = settingsOf s := by
  rw [scanKeys_eq, settingsOf_usedSamples, settingsOf_emit]

@[simp] theorem settingsOf_takeClock (s : State) : settingsOf (takeClock s).2 = settingsOf s := by
  rw [takeClock_eq, settingsOf_usedClock]

@[simp] theorem settingsOf_withQueue (q : List Chr) (s : State) :
    settingsOf { s with queue := q } = { settingsOf s with queue := q } := rfl

@[simp] theorem settingsOf_showText (t : Str) (s : State) :
    settingsOf (showText t s) = { settingsOf s with grid := renderGrid s.cfg s.mode t } :=
  settingsOf_wrGrid _

@[simp] theorem settingsOf_clearDisp (s : State) :
    settingsOf (clearDisp s) = { settingsOf s with grid := blankGrid } :=
  settingsOf_wrGrid _

/-! ## Requests -/

/-- What instruction `i` may make of the settings: seven instructions write what the rules name, and
every instruction may leave the settings as they are. -/
inductive Writes : Instr → Settings → Settings → Prop where
  | kept {i : Instr} {a : Settings} : Writes i a a
  | setmode (sel : Byte) (m : Mode) {a : Settings} : Writes (.setmode sel) a { a with mode := m }
  | setbrt (v : Int) (b : Fin 16) {a : Settings} : Writes (.setbrt v) a { a with brightness := b }
  | settxt (x t : Str) (g : Vector Byte 7) {a : Settings} :
      Writes (.settxt x) a { a with text := t, grid := g }
  | settm (f : Byte) (on : Bool) (g : Vector Byte 7) {a : Settings} :
      Writes (.settm f) a { a with timeMode := on, grid := g }
  | clrkeys (g : Vector Byte 7) (q : List Chr) {a : Settings} :
      Writes .clrkeys a { a with grid := g, queue := q }
  | pushkey (c : Chr) (q : List Chr) {a : Settings} : Writes (.pushkey c) a { a with queue := q }
  | popkey (q : List Chr) {a : Settings} : Writes .popkey a { a with queue := q }

namespace Writes

variable {i : Instr}

theorem of_eq {a b : Settings} (h : b = a) : Writes i a b := h ▸ .kept

/-- Each setting is written by the instructions that the rules name for it, and by no other. -/
theorem only_named {a b : Settings} (h : Writes i a b) :
    ((∀ sel, i ≠ .setmode sel) → b.mode = a.mode) ∧
    ((∀ v, i ≠ .setbrt v) → b.brightness = a.brightness) ∧
    ((∀ x, i ≠ .settxt x) → b.text = a.text) ∧
    ((∀ f, i ≠ .settm f) → b.timeMode = a.timeMode) ∧
    ((∀ x, i ≠ .settxt x) → (∀ f, i ≠ .settm f) → i ≠ .clrkeys → b.grid = a.grid) ∧
    ((∀ c, i ≠ .pushkey c) → i ≠ .popkey → i ≠ .clrkeys → b.queue = a.queue) := by
  cases h with
  | kept => simp
  | setmode | setbrt | settxt | settm | clrkeys | pushkey | popkey => simp

end Writes

/-- Performed by `m`, instruction `i` writes the settings as `Writes` says. -/
def WritesBy (i : Instr) (m : State → Host.Outcome State Fault Refusal) : Prop :=
  ∀ s t, m s = .next t → Writes i (settingsOf s) (settingsOf t)

namespace WritesBy

variable {i : Instr}

/-- Of a request in the envelope only the body can write the settings (R175, R210). -/
theorem serve {body : State → State}
    (hbody : ∀ s, Writes i (settingsOf s) (settingsOf (body s))) : WritesBy i (Machine.serve body) := by
  intro s t h
  obtain rfl := Host.Outcome.next.inj h
  split
  · exact hbody s
  · exact .of_eq (settingsOf_fail _ s)

theorem ok {work : State → State} {v : State → Value}
    (hwork : ∀ s, Writes i (settingsOf s) (settingsOf (work s))) :
    WritesBy i (Machine.serve fun s => respondOk (v s) (work s)) :=
  serve fun s => (settingsOf_respondOk (v s) (work s)).symm ▸ hwork s

theorem execStop : WritesBy .stop (exec .stop) := by
  intro s t h
  rcases execStop_cases s with ⟨-, he⟩ | ⟨-, he⟩ | ⟨-, he⟩ <;>
    obtain rfl := Host.Outcome.next.inj (he.symm.trans h) <;> exact .kept

theorem execSetmode (sel : Byte) : WritesBy (.setmode sel) (execSetmode sel) := by
  refine serve fun s => ?_
  cases modeOfSel sel with
  | none => exact .of_eq (settingsOf_fail _ s)
  | some m =>
    rw [settingsOf_respondOk, settingsOf_initSeq]
    exact .setmode sel m

theorem execWrraw (x : Str) : WritesBy (.wrraw x) (execWrraw x) := by
  refine serve fun s => ?_
  cases hexBytes x with
  | none => exact .of_eq (settingsOf_fail _ s)
  | some b => exact .of_eq (by rw [settingsOf_respondOk, settingsOf_wrRawB])

theorem execSettm (f : Byte) : WritesBy (.settm f) (execSettm f) := by
  refine ok fun s => ?_
  unfold setTimeMode
  cases isOn f with
  | true => exact .settm f true s.grid
  | false =>
    rw [if_neg Bool.false_ne_true, settingsOf_showText]
    exact .settm f false _

theorem exec (i : Instr) (hstart : ∀ f, i ≠ .start f) : WritesBy i (exec i) := by
  cases i with
  | start f => exact absurd rfl (hstart f)
  | stop => exact execStop
  | setmode sel => exact execSetmode sel
  | wrraw x => exact execWrraw x
  | settm f => exact execSettm f
  | setbrt v => exact ok fun s => by rw [settingsOf_initSeq]; exact .setbrt v _
  | settxt x => exact ok fun s => by rw [settingsOf_showText]; exact .settxt x _ _
  | clrkeys => exact ok fun s => by rw [settingsOf_clearDisp]; exact .clrkeys _ _
  | pushkey c => exact ok fun s => .pushkey c _
  | popkey => exact ok fun s => .popkey _
  | sendbyte | sendcmd | readbyte | char2seg | render | wrreg | wrgrid | wrrawb | initseq | scankeys
  | decodekey | getbrt | gettm | gettxt | getmode | showkeys | cmdMode | cmdDataAutoinc | cmdReadKeys
  | addr | cmdBright => exact ok fun s => .of_eq (by simp)

end WritesBy

/-! ## The loop -/

/-- `t` has the settings of `s` but for Grid and the queue. -/
def KeepsControls (s t : State) : Prop :=
  t.mode = s.mode ∧ t.brightness = s.brightness ∧ t.text = s.text ∧ t.timeMode = s.timeMode

namespace KeepsControls

theorem of_settingsOf {s t : State} {g : Vector Byte 7} {q : List Chr}
    (h : settingsOf t = { settingsOf s with grid := g, queue := q }) : KeepsControls s t := by
  simp only [settingsOf, Settings.mk.injEq] at h
  obtain ⟨hmode, hbrightness, htext, htimeMode, -, -⟩ := h
  exact ⟨hmode, hbrightness, htext, htimeMode⟩

theorem refl (s : State) : KeepsControls s s := ⟨rfl, rfl, rfl, rfl⟩

theorem frameStep (k : Fin 12) (s : State) : KeepsControls s (frameStep k s) := by
  unfold Machine.frameStep
  split
  · exact ⟨rfl, rfl, rfl, rfl⟩
  · split <;> exact ⟨rfl, rfl, rfl, rfl⟩

/-- The time goes to Grid only (R159). -/
theorem timeIter (s : State) : KeepsControls s (timeIter s) := by
  refine of_settingsOf (g := (Machine.timeIter s).grid) (q := s.queue) ?_
  simp only [Machine.timeIter, pacing, loopOperation, settingsOf_emit, settingsOf_release,
    settingsOf_showText, settingsOf_takeClock, settingsOf_takeGrant]
  rfl

/-- A scan writes the queue only (R160). -/
theorem scanIter (s : State) : KeepsControls s (scanIter s) := by
  obtain ⟨q, hq⟩ := scanIter_eq s
  have hscan : settingsOf (scanKeys (takeGrant .loop s)).2 = settingsOf s :=
    settingsOf_scanKeys (takeGrant .loop s)
  refine of_settingsOf (g := s.grid) (q := q) ?_
  calc settingsOf (Machine.scanIter s)
      = { settingsOf (scanKeys (takeGrant .loop s)).2 with queue := q } := by
        rw [hq, pacing, settingsOf_emit, settingsOf_release, settingsOf_withQueue]
    _ = { settingsOf s with queue := q } := by rw [hscan]

theorem loopStep (s : State) : KeepsControls s (loopStep s) := by
  unfold Machine.loopStep
  split
  · split
    · exact refl s
    · exact frameStep _ s
  · split
    · exact refl s
    · split
      · exact timeIter s
      · exact scanIter s
  all_goals exact refl s

end KeepsControls

/-- Settles O51, by what each instruction may write and what the loop keeps. -/
theorem onlyNamedOperationsWriteTheSettings : Obligations.OnlyNamedOperationsWriteTheSettings := by
  unfold Obligations.OnlyNamedOperationsWriteTheSettings
  exact ⟨fun i s t h hstart => (WritesBy.exec i hstart s t h).only_named, KeepsControls.loopStep⟩

end Sys2Proof.SettingWrites

namespace Sys2Proof.Animation

open Sys2Proof.Machine Sys2Proof.Safety Sys2Proof.StepEffects

/-! # The startup animation (R156, R157, R232) -/

/-! ## Events that carry transactions from any level of DATA -/

/-- Outside a strobe window, whatever DATA is, the byte-level view reads from `es` just `txs` (R11). -/
def Sends (es : List PinEvent) (txs : List Transaction) : Prop :=
  ∀ x done, ∃ y, viewFrom ⟨x, none, done⟩ es = ⟨y, none, done ++ txs⟩

namespace Sends

theorem append {es fs : List PinEvent} {txs uxs : List Transaction} (h : Sends es txs)
    (k : Sends fs uxs) : Sends (es ++ fs) (txs ++ uxs) := by
  intro x done
  obtain ⟨y, hy⟩ := h x done
  obtain ⟨z, hz⟩ := k y (done ++ txs)
  exact ⟨z, by rw [viewFrom_append, hy, hz, List.append_assoc]⟩

theorem carries {es : List PinEvent} {txs : List Transaction} (h : Sends es txs) :
    Carries es txs := by
  obtain ⟨y, hy⟩ := h true []
  exact carries_of_view hy

theorem nil : Sends [] [] := fun x _ => ⟨x, by simp [viewFrom]⟩

theorem grid (cfg : Params) (m : Mode) (g : Vector Byte 7) :
    Sends (gridEvents cfg m g) (gridTxs cfg m g) := fun x done => view_gridEvents x done cfg m g

theorem pause (p : Pause) : Sends [.pause p] [] :=
  fun x _ => ⟨x, by simp [viewFrom, viewEvent]⟩

end Sends

/-! ## One frame -/

/-- The image of frame `k`: a digit, the banner, or blank (R156, R157). -/
def frameImage (cfg : Params) (m : Mode) (k : Nat) : Vector Byte 7 :=
  if k ≤ 9 then renderGrid cfg m (frameString k)
  else if k = 10 then renderGrid cfg m cfg.banner
  else blankGrid

/-- The pause after frame `k`, if it has one (R156, R157). -/
def framePause (k : Nat) : List PinEvent :=
  if k ≤ 9 then [.pause .startupHold] else if k = 10 then [.pause .bannerHold] else []

def frameEvents (cfg : Params) (m : Mode) (k : Nat) : List PinEvent :=
  gridEvents cfg m (frameImage cfg m k) ++ framePause k

def frameTxs (cfg : Params) (m : Mode) (k : Nat) : List Transaction :=
  gridTxs cfg m (frameImage cfg m k)

theorem sends_framePause (k : Nat) : Sends (framePause k) [] := by
  unfold framePause
  split
  · exact .pause _
  · split
    · exact .pause _
    · exact .nil

theorem sends_frame (cfg : Params) (m : Mode) (k : Nat) :
    Sends (frameEvents cfg m k) (frameTxs cfg m k) := by
  have h := (Sends.grid cfg m (frameImage cfg m k)).append (sends_framePause k)
  rwa [List.append_nil] at h

/-- `s` after the events `es` of frames of the animation: `g` in Grid and on the display, DATA at `d`, the
phase `p`. -/
def animated (es : List PinEvent) (d : Bool) (g : Vector Byte 7) (p : Phase) (s : State) : State :=
  drove es d { s with grid := g, renderN := nGrids s.mode, phase := p }

/-- Of two runs of frames the later one decides Grid, DATA and phase. -/
theorem animated_animated (es fs : List PinEvent) (d e : Bool) (g h : Vector Byte 7) (p q : Phase)
    (s : State) : animated fs e h q (animated es d g p s) = animated (es ++ fs) e h q s := by
  simp only [animated, drove, List.append_assoc]

/-- An image shown in an operation of the loop that goes on to phase `p`, then events that leave the pins
as they are. -/
theorem loopOperation_shows (f : State → State) (image : Params → Mode → Vector Byte 7)
    (hf : ∀ u, f u = showed (gridEvents u.cfg u.mode (image u.cfg u.mode)) (image u.cfg u.mode) u)
    (p : Phase) (es : List PinEvent) (hes : ∀ ps, pinsAfter ps es = ps) (s : State)
    (ho : s.owner = .none) :
    ∃ d, emit es (loopOperation (fun u => { f u with phase := p }) s) =
      animated (gridEvents s.cfg s.mode (image s.cfg s.mode) ++ es) d (image s.cfg s.mode) p s := by
  refine ⟨((image s.cfg s.mode).toList.getD (nGrids s.mode - 1) 0x00#8).getLsbD 7, ?_⟩
  simp only [emit, loopOperation, hf, takeGrant, release, showed, drove, animated, hes, ho,
    List.append_assoc]

/-- Frame `k` shows its image, pauses, and goes on to the next frame. -/
theorem frameStep_eq (k : Fin 12) (s : State) (ho : s.owner = .none) :
    ∃ d, frameStep k s =
      animated (frameEvents s.cfg s.mode k) d (frameImage s.cfg s.mode k) (frameNext k) s := by
  have hnext : frameNext k = (frameStep k s).phase := (frameStep_phase k s).symm
  rw [hnext]
  unfold frameStep frameEvents frameImage framePause
  by_cases hdigit : k.val ≤ 9
  · simp only [if_pos hdigit]
    exact loopOperation_shows (showText (frameString k))
      (fun cfg m => renderGrid cfg m (frameString k)) (showText_showed _) _ _ (fun _ => rfl) s ho
  simp only [if_neg hdigit]
  by_cases hbanner : k.val = 10
  · simp only [if_pos hbanner]
    exact loopOperation_shows (fun u => showText u.cfg.banner u)
      (fun cfg m => renderGrid cfg m cfg.banner) (fun u => showText_showed u.cfg.banner u) _ _
      (fun _ => rfl) s ho
  · simp only [if_neg hbanner]
    obtain ⟨d, hd⟩ := loopOperation_shows clearDisp (fun _ _ => blankGrid) clearDisp_showed .steady []
      (fun _ => rfl) s ho
    exact ⟨d, (emit_nil _).symm.trans hd⟩

/-- A turn of the loop in Startup(k) with no stop request shows frame `k`. -/
theorem step_frame {s : State} {k : Fin 12} {rest : List Agent} (ho : s.owner = .none)
    (hturns : s.turns = .loop :: rest) (hphase : s.phase = .startup k) (hreq : s.stopReq = false) :
    ∃ d, step s = .next (animated (frameEvents s.cfg s.mode k) d (frameImage s.cfg s.mode k)
      (frameNext k) { s with turns := rest }) := by
  obtain ⟨d, hd⟩ := frameStep_eq k { s with turns := rest } ho
  refine ⟨d, ?_⟩
  have hloop : loopStep { s with turns := rest } = frameStep k { s with turns := rest } := by
    simp only [loopStep, hphase, hreq, Bool.false_eq_true, if_false]
  rw [← hd, ← hloop]
  simp only [step, ho, if_true, nextTurn, hturns, agentTurn]

/-! ## The frames from `k` on -/

theorem core_run_succ {s t : State} (n : Nat) (h : step s = .next t) :
    core.run (n + 1) s = core.run n t := by
  have hcore : core.step s = .next t := h
  simp only [Host.Core.run, hcore]

theorem frameNext_of_lt {k : Fin 12} (h : k.val + 1 < 12) : frameNext k = .startup ⟨k.val + 1, h⟩ :=
  dif_pos h

/-- With `n` frames to go after frame `k`, `n + 1` turns of the loop show them all and reach Steady. -/
theorem run_frames (n : Nat) (k : Fin 12) (hk : k.val + n = 11) (rest : List Agent) (s : State)
    (ho : s.owner = .none) (hturns : s.turns = List.replicate (n + 1) .loop ++ rest)
    (hphase : s.phase = .startup k) (hreq : s.stopReq = false) :
    ∃ es d, Sends es ((List.range' k (n + 1)).flatMap (frameTxs s.cfg s.mode)) ∧
      core.run (n + 1) s = .next (animated es d blankGrid .steady { s with turns := rest }) := by
  induction n generalizing k s with
  | zero =>
    obtain rfl : k = 11 := Fin.ext hk
    obtain ⟨d, hstep⟩ := step_frame ho hturns hphase hreq
    refine ⟨frameEvents s.cfg s.mode 11, d, ?_, core_run_succ 0 hstep⟩
    simpa using sends_frame s.cfg s.mode 11
  | succ n ih =>
    have hlt : k.val + 1 < 12 := by omega
    obtain ⟨d, hstep⟩ := step_frame ho hturns hphase hreq
    rw [frameNext_of_lt hlt] at hstep
    obtain ⟨fs, e, hsends, hrun⟩ := ih ⟨k.val + 1, hlt⟩ (by simp only; omega)
      (animated (frameEvents s.cfg s.mode k) d (frameImage s.cfg s.mode k) (.startup ⟨k.val + 1, hlt⟩)
        { s with turns := List.replicate (n + 1) .loop ++ rest }) ho rfl rfl hreq
    refine ⟨frameEvents s.cfg s.mode k ++ fs, e, ?_, ?_⟩
    · rw [List.range'_succ, List.flatMap_cons]
      exact (sends_frame _ _ _).append hsends
    · have hlater := animated_animated (frameEvents s.cfg s.mode k) fs d e
        (frameImage s.cfg s.mode k) blankGrid (.startup ⟨k.val + 1, hlt⟩) .steady
        { s with turns := rest }
      exact (core_run_succ _ hstep).trans (hrun.trans (congrArg _ hlater))

/-- The transactions of the twelve frames in order: the digits, the banner, blank. -/
theorem flatMap_frameTxs (cfg : Params) (m : Mode) :
    (List.range' 0 12).flatMap (frameTxs cfg m) =
      (List.range 10).flatMap (fun k => gridTxs cfg m
        (renderGrid cfg m (List.replicate 6 [BitVec.ofNat 8 (0x30 + k), 0x2E#8]).flatten)) ++
      gridTxs cfg m (renderGrid cfg m cfg.banner) ++
      gridTxs cfg m (Vector.replicate 7 0x00#8) := by
  have hframes : List.range' 0 12 = List.range 10 ++ [10] ++ [11] := rfl
  have hdigits : (List.range 10).flatMap (frameTxs cfg m) =
      (List.range 10).flatMap (fun k => gridTxs cfg m
        (renderGrid cfg m (List.replicate 6 [BitVec.ofNat 8 (0x30 + k), 0x2E#8]).flatten)) := by
    refine List.flatMap_congr fun k hk => ?_
    have hle : k ≤ 9 := by
      have := List.mem_range.mp hk
      omega
    simp only [frameTxs, frameImage, if_pos hle, frameString, digitChr, dotChr]
  rw [hframes, List.flatMap_append, List.flatMap_append, hdigits, List.flatMap_singleton,
    List.flatMap_singleton]
  rfl

/-- Settles O34: the run of frames from frame 0. -/
theorem startupAnimationReachesSteady : Obligations.StartupAnimationReachesSteady := by
  unfold Obligations.StartupAnimationReachesSteady
  intro rest s ho hturns hphase hreq
  obtain ⟨es, d, hsends, hrun⟩ := run_frames 11 0 rfl rest s ho hturns hphase hreq
  refine ⟨es, d, ?_, hrun⟩
  rw [← flatMap_frameTxs]
  exact hsends.carries

end Sys2Proof.Animation

namespace Sys2Proof.Initial

open Sys2Proof.Machine Sys2Proof.Safety Sys2Proof.StepEffects

/-! # Held grant, reset, and START's reset record -/

/-- Settles O44: the step asks for a free grant first (R33). -/
theorem heldGrantLetsNothingBegin : Obligations.HeldGrantLetsNothingBegin := by
  unfold Obligations.HeldGrantLetsNothingBegin
  intro s hheld
  exact if_neg hheld

/-- Settles O46: in Off no engine runs and no stop request stands, and nothing has been sent. -/
theorem resetMeetsTheInvariants : Obligations.ResetMeetsTheInvariants := by
  unfold Obligations.ResetMeetsTheInvariants
  have hinv : StateInv State.reset := (stateInv_iff _).mpr ⟨rfl, .ofNoEngine rfl rfl⟩
  have hwhole : TraceWhole State.reset := rfl
  have hmirror : PinsMirror Pins.idle State.reset := rfl
  exact ⟨rfl, rfl, rfl, hinv, hwhole, hmirror⟩

/-- In Off with the lines obtained START is the reset record, INITSEQ and Startup(0) (R188). -/
theorem execStart_off {f : Byte} {s : State} (hoff : s.phase = .off) (hf : f ≠ 0x00#8) :
    exec (.start f) s =
      .next (answered .ok .none { initSeq (startReset s) with phase := .startup 0 }) := by
  rcases execStart_cases f s with ⟨hrunning, -⟩ | ⟨-, hzero, -⟩ | ⟨-, -, he⟩
  · exact absurd hoff hrunning
  · exact absurd hzero hf
  · exact he

/-- Settles O58: `startReset_eq`, and START after it. -/
theorem startSetsTheResetRecordBeforeInit : Obligations.StartSetsTheResetRecordBeforeInit := by
  unfold Obligations.StartSetsTheResetRecordBeforeInit
  exact ⟨fun s => ⟨0, startReset_eq s⟩, fun _ _ hoff hf => execStart_off hoff hf⟩

end Sys2Proof.Initial

namespace Sys2Proof.DisplayRegisters

open Sys2Proof.Machine Sys2Proof.Safety Sys2Proof.StepEffects Sys2Proof.Animation

/-! # Whole transactions and the display registers (R11, R51, R59)

Behind a whole trace the byte-level view of the next events starts with no strobe window open. So what
`Sends` says of a list of events holds behind every such trace, and the registers change by just the
transactions that the events carry. -/

/-! ## Events behind a whole trace -/

theorem viewOf_whole {es : List PinEvent} (hwhole : wholeTrace es = true) :
    viewOf es = ⟨(viewOf es).dio, none, transactionsOf es⟩ := by
  have hclosed : (viewOf es).window = none := Option.isNone_iff_eq_none.mp hwhole
  rw [← hclosed, transactionsOf]

theorem wholeTrace_append_clean {es fs : List PinEvent} (hwhole : wholeTrace es = true)
    (hclean : CleanEvents fs) : wholeTrace (es ++ fs) = true := by
  obtain ⟨y, txs, hview⟩ := hclean.view (viewOf es).dio (transactionsOf es)
  rw [wholeTrace, viewOf_append, viewOf_whole hwhole, hview]
  rfl

theorem transactionsOf_append_sent {es fs : List PinEvent} {txs : List Transaction}
    (hwhole : wholeTrace es = true) (hsends : Sends fs txs) :
    transactionsOf (es ++ fs) = transactionsOf es ++ txs := by
  obtain ⟨y, hview⟩ := hsends (viewOf es).dio (transactionsOf es)
  rw [transactionsOf, viewOf_append, viewOf_whole hwhole, hview]

theorem deviceImage_append_sent {es fs : List PinEvent} {txs : List Transaction}
    (hwhole : wholeTrace es = true) (hsends : Sends fs txs) :
    deviceImage (es ++ fs) = txs.foldl imageAfter (deviceImage es) := by
  rw [deviceImage, transactionsOf_append_sent hwhole hsends, List.foldl_append, deviceImage]

/-- Settles O47: the events that a step adds are clean. -/
theorem stepKeepsTransactionsWhole : Obligations.StepKeepsTransactionsWhole := by
  unfold Obligations.StepKeepsTransactionsWhole TraceWhole
  intro s t hwhole h
  obtain ⟨es, htrace, -, hclean⟩ := (step_extends h).events
  rw [htrace]
  exact wholeTrace_append_clean hwhole hclean

/-! ## The image -/

theorem wf_foldl_imageAfter (txs : List Transaction) {m : Memory} (hm : Memory.wf m = true) :
    Memory.wf (txs.foldl imageAfter m) = true := by
  induction txs generalizing m with
  | nil => exact hm
  | cons tx txs ih => exact ih (imageAfter_wf m tx hm)

/-- Settles O57: the empty image is canonical, and each transaction keeps it so. -/
theorem deviceImageIsCanonical : Obligations.DeviceImageIsCanonical := by
  unfold Obligations.DeviceImageIsCanonical
  exact fun es => wf_foldl_imageAfter (transactionsOf es) rfl

@[simp] theorem imageAfter_writeTx (m : Memory) (a d : Byte) :
    imageAfter m (writeTx a d) = Memory.write m a.toNat d := rfl

section Writes

variable {α : Type} {addr data : α → Byte}

/-- Data writes leave every address that none of them names as it was. -/
theorem read_writes_other {l : List α} {x : Nat} (hx : ∀ i ∈ l, x ≠ (addr i).toNat) (m : Memory) :
    Memory.read ((l.map fun i => writeTx (addr i) (data i)).foldl imageAfter m) x =
      Memory.read m x := by
  induction l generalizing m with
  | nil => rfl
  | cons j l ih =>
    obtain ⟨hj, hl⟩ := List.forall_mem_cons.mp hx
    rw [List.map_cons, List.foldl_cons, ih hl, imageAfter_writeTx, Memory.read_write_other _ _ _ _ hj]

/-- Of data writes to different addresses each leaves its byte at its address. -/
theorem read_writes_mem {l : List α} (hdistinct : (l.map addr).Nodup) {i : α} (hi : i ∈ l)
    (m : Memory) :
    Memory.read ((l.map fun i => writeTx (addr i) (data i)).foldl imageAfter m) (addr i).toNat =
      some (data i) := by
  induction l generalizing m with
  | nil => cases hi
  | cons j l ih =>
    obtain ⟨hfresh, htail⟩ := List.nodup_cons.mp hdistinct
    rw [List.map_cons, List.foldl_cons]
    rcases List.mem_cons.mp hi with rfl | hi
    · have hother : ∀ k ∈ l, (addr i).toNat ≠ (addr k).toNat := fun k hk heq =>
        hfresh (List.mem_map.mpr ⟨k, hk, (BitVec.eq_of_toNat_eq heq).symm⟩)
      rw [read_writes_other hother, imageAfter_writeTx, Memory.read_write_same]
    · exact ih htail hi _

/-- What data writes to different addresses, sent behind a whole trace, leave in the registers. -/
theorem registerAt_writes {s t : State} {es : List PinEvent} {l : List α} (hwhole : TraceWhole s)
    (htrace : t.trace = s.trace ++ es)
    (hsends : Sends es (l.map fun i => writeTx (addr i) (data i))) (hdistinct : (l.map addr).Nodup) :
    (∀ i ∈ l, registerAt t (addr i).toNat = some (data i)) ∧
      ∀ x, (∀ i ∈ l, x ≠ (addr i).toNat) → registerAt t x = registerAt s x := by
  have himage := deviceImage_append_sent hwhole hsends
  simp only [registerAt, htrace, himage]
  exact ⟨fun i hi => read_writes_mem hdistinct hi _, fun x hx => read_writes_other hx _⟩

end Writes

/-! ## Addresses (R52) -/

/-- Offsets below 256 have addresses of their own, since the base is added modulo 256. -/
theorem addressAt_inj {cfg : Params} {m : Mode} {o p : Nat} (ho : o < 256) (hp : p < 256)
    (h : addressAt cfg m o = addressAt cfg m p) : o = p := by
  have hnat := congrArg BitVec.toNat h
  simp only [addressAt, BitVec.toNat_ofNat] at hnat
  omega

theorem nodup_addresses (cfg : Params) (m : Mode) {n : Nat} {offset : Nat → Nat}
    (hsmall : ∀ i < n, offset i < 256) (hinj : ∀ i j, offset i = offset j → i = j) :
    ((List.range n).map fun i => addressAt cfg m (offset i)).Nodup := by
  refine List.nodup_range.map_on fun i hi j hj heq => hinj i j ?_
  exact addressAt_inj (hsmall i (List.mem_range.mp hi)) (hsmall j (List.mem_range.mp hj)) heq

theorem nGrids_le_seven (m : Mode) : nGrids m ≤ 7 := by
  cases m <;> decide

/-! ## The requests that store (R122 to R124, R181) -/

theorem sends_wr (a d : Byte) : Sends (wrEvents a d) [writeTx a d] :=
  fun x done => ⟨_, view_wrEvents x done a d⟩

theorem sends_raw (cfg : Params) (m : Mode) (b : List Byte) :
    Sends (rawEvents cfg m b)
      ((List.range 14).map fun j => writeTx (addressAt cfg m j) (b.getD j 0x00#8)) := by
  simp only [← rawOut_eq, rawOut, writeOut_eq]
  exact fun x done => view_wrList x done _ _ _

/-- Settles O53: one data write. -/
theorem wrRegStoresAtItsAddressOnly : Obligations.WrRegStoresAtItsAddressOnly := by
  unfold Obligations.WrRegStoresAtItsAddressOnly
  intro a d s hwhole hruns
  have hexec : exec (.wrreg a d) s = .next (respondOk .none (wrReg a d s)) := by
    rw [exec, execWrreg, serve_running _ s hruns]
  obtain ⟨hstored, hothers⟩ := registerAt_writes (t := respondOk .none (wrReg a d s))
    (l := [a]) (addr := id) (data := fun _ => d) hwhole rfl (sends_wr a d) (List.nodup_singleton a)
  exact ⟨_, hexec, hstored a (List.mem_singleton_self a),
    fun x hx => hothers x fun i hi => List.mem_singleton.mp hi ▸ hx⟩

/-- Settles O54: N data writes, at even offsets below 14. -/
theorem setTxtStoresAtGridAddressesOnly : Obligations.SetTxtStoresAtGridAddressesOnly := by
  unfold Obligations.SetTxtStoresAtGridAddressesOnly
  intro text s hwhole hruns
  have hexec : exec (.settxt text) s =
      .next (respondOk .none (showText text { s with text := text })) := by
    rw [exec, execSettxt, serve_running _ s hruns]
  have hdistinct : ((List.range (nGrids s.mode)).map fun i => addressAt s.cfg s.mode (2 * i)).Nodup :=
    nodup_addresses s.cfg s.mode (fun i hi => by have := nGrids_le_seven s.mode; omega) (by omega)
  obtain ⟨hstored, hothers⟩ := registerAt_writes
    (t := respondOk .none (showText text { s with text := text })) hwhole rfl
    (Sends.grid s.cfg s.mode (renderGrid s.cfg s.mode text)) hdistinct
  refine ⟨_, hexec, fun i hi => ?_, fun x hx => hothers x fun i hi => hx i (List.mem_range.mp hi)⟩
  rw [hstored i.val (List.mem_range.mpr hi), ← gridByte_eq, gridByte_lt _ _ i.isLt]
  rfl

/-- Settles O55: 14 data writes, at offsets 0 to 13. -/
theorem wrRawBStoresAtFourteenAddressesOnly : Obligations.WrRawBStoresAtFourteenAddressesOnly := by
  unfold Obligations.WrRawBStoresAtFourteenAddressesOnly
  intro b s _ hwhole hruns
  have hexec : exec (.wrrawb b) s = .next (respondOk .none (wrRawB b s)) := by
    rw [exec, execWrrawb, serve_running _ s hruns]
  have hdistinct : ((List.range 14).map fun j => addressAt s.cfg s.mode j).Nodup :=
    nodup_addresses s.cfg s.mode (by omega) (by omega)
  obtain ⟨hstored, hothers⟩ := registerAt_writes (t := respondOk .none (wrRawB b s)) hwhole rfl
    (sends_raw s.cfg s.mode b) hdistinct
  exact ⟨_, hexec, fun j hj => hstored j (List.mem_range.mpr hj),
    fun x hx => hothers x fun j hj => hx j (List.mem_range.mp hj)⟩

/-! ## Events that store nothing -/

/-- The transaction is no data write: the image stays as it is. -/
def StoresNothing (tx : Transaction) : Prop := ∀ m, imageAfter m tx = m

/-- The transactions that the events carry are no data writes. -/
def Harmless (es : List PinEvent) : Prop := ∃ txs, Sends es txs ∧ ∀ tx ∈ txs, StoresNothing tx

theorem foldl_imageAfter_storesNothing {txs : List Transaction} (h : ∀ tx ∈ txs, StoresNothing tx)
    (m : Memory) : txs.foldl imageAfter m = m := by
  induction txs with
  | nil => rfl
  | cons tx txs ih =>
    obtain ⟨htx, htxs⟩ := List.forall_mem_cons.mp h
    rw [List.foldl_cons, htx m, ih htxs]

namespace Harmless

theorem append {es fs : List PinEvent} (he : Harmless es) (hf : Harmless fs) :
    Harmless (es ++ fs) := by
  obtain ⟨txs, hes, htxs⟩ := he
  obtain ⟨uxs, hfs, huxs⟩ := hf
  exact ⟨txs ++ uxs, hes.append hfs, List.forall_mem_append.mpr ⟨htxs, huxs⟩⟩

theorem ofNone {es : List PinEvent} (h : Sends es []) : Harmless es := ⟨[], h, by simp⟩

theorem ofOne {es : List PinEvent} {tx : Transaction} (h : Sends es [tx]) (htx : StoresNothing tx) :
    Harmless es := ⟨[tx], h, List.forall_mem_singleton.mpr htx⟩

theorem nil : Harmless [] := ofNone .nil

theorem bytes (b : Byte) : Harmless (byteEvents b) :=
  ofNone fun x done => ⟨_, by rw [view_byteEvents_closed, List.append_nil]⟩

theorem reads (xs : List Sample) : Harmless (readEvents xs) :=
  ofNone fun x done => ⟨x, by rw [view_readEvents_closed, List.append_nil]⟩

theorem idle : Harmless idleEvents :=
  ofNone fun x done => ⟨true, by rw [view_idleEvents, List.append_nil]⟩

theorem cmd (c : Byte) : Harmless (cmdEvents c) :=
  ofOne (fun x done => ⟨_, view_cmdEvents x done c⟩) fun _ => rfl

theorem scan (s : State) : Harmless (scanEvents s) :=
  ofOne (fun x done => ⟨_, view_scanEvents x done s⟩) fun _ => rfl

theorem init (cfg : Params) (m : Mode) (b : Fin 16) : Harmless (initEvents cfg m b) :=
  ((cmd _).append (cmd _)).append (cmd _)

end Harmless

/-! ## Operations that store nothing -/

/-- `t` comes from `s` with only events added that store nothing. -/
def KeepsDisplay (s t : State) : Prop := ∃ es, t.trace = s.trace ++ es ∧ Harmless es

theorem KeepsDisplay.registerAt_eq {s t : State} (h : KeepsDisplay s t) (hwhole : TraceWhole s)
    (x : Nat) : registerAt t x = registerAt s x := by
  obtain ⟨es, htrace, txs, hsends, hnothing⟩ := h
  rw [registerAt, htrace, deviceImage_append_sent hwhole hsends,
    foldl_imageAfter_storesNothing hnothing, registerAt]

namespace KeepsDisplay

theorem sameTrace {s t : State} (h : t.trace = s.trace) : KeepsDisplay s t :=
  ⟨[], by rw [h, List.append_nil], .nil⟩

theorem readByte (s : State) : KeepsDisplay s (readByte s).2 := by
  rw [readByte_eq]
  exact ⟨readByteEvents 1 s, rfl, .reads _⟩

theorem scanKeys (s : State) : KeepsDisplay s (scanKeys s).2 := by
  rw [scanKeys_eq]
  exact ⟨scanEvents s, rfl, .scan s⟩

theorem startEngine (s : State) : KeepsDisplay s (startEngine s) :=
  ⟨idleEvents ++ initEvents s.cfg Config.modeReset Config.brightReset,
    List.append_assoc _ _ _, Harmless.idle.append (.init _ _ _)⟩

end KeepsDisplay

/-- Performing `m` stores nothing in the display registers. -/
def StoresNothingBy (m : State → Host.Outcome State Fault Refusal) : Prop :=
  ∀ s t, m s = .next t → KeepsDisplay s t

namespace StoresNothingBy

/-- A request in the envelope sends what its body sends, or fails and sends nothing (R175, R210). -/
theorem serve {body : State → State} (hbody : ∀ s, KeepsDisplay s (body s)) :
    StoresNothingBy (Machine.serve body) := by
  intro s t h
  obtain rfl := Host.Outcome.next.inj h
  split
  · exact hbody s
  · exact .sameTrace rfl

/-- A request that is answered after its work. -/
theorem ok {work : State → State} {v : State → Value} (hwork : ∀ s, KeepsDisplay s (work s)) :
    StoresNothingBy (Machine.serve fun s => respondOk (v s) (work s)) := serve hwork

/-- A request that sends nothing. -/
theorem silent {work : State → State} {v : State → Value} (hwork : ∀ s, (work s).trace = s.trace) :
    StoresNothingBy (Machine.serve fun s => respondOk (v s) (work s)) :=
  ok fun s => .sameTrace (hwork s)

/-- A request that sends one byte with no strobe (R100). -/
theorem sendByte (b : State → Byte) :
    StoresNothingBy (Machine.serve fun s => respondOk .none (Machine.sendByte (b s) s)) :=
  ok fun s => ⟨byteEvents (b s), rfl, .bytes (b s)⟩

theorem execSetmode (sel : Byte) : StoresNothingBy (execSetmode sel) := by
  refine serve fun s => ?_
  cases modeOfSel sel with
  | none => exact .sameTrace rfl
  | some m => exact ⟨initEvents s.cfg m s.brightness, rfl, .init _ _ _⟩

theorem execStart (f : Byte) : StoresNothingBy (exec (.start f)) := by
  intro s t h
  rcases execStart_cases f s with ⟨-, he⟩ | ⟨-, -, he⟩ | ⟨-, -, he⟩ <;>
    obtain rfl := Host.Outcome.next.inj (he.symm.trans h)
  · exact .sameTrace rfl
  · exact .sameTrace rfl
  · exact .startEngine s

theorem execStop : StoresNothingBy (exec .stop) := by
  intro s t h
  rcases execStop_cases s with ⟨-, he⟩ | ⟨-, he⟩ | ⟨-, he⟩ <;>
    obtain rfl := Host.Outcome.next.inj (he.symm.trans h) <;> exact .sameTrace rfl

/-- Every instruction but the seven that write display registers (R246). -/
theorem exec (i : Instr) (hwrreg : ∀ a d, i ≠ .wrreg a d) (hwrgrid : i ≠ .wrgrid)
    (hwrrawb : ∀ b, i ≠ .wrrawb b) (hwrraw : ∀ x, i ≠ .wrraw x) (hsettxt : ∀ x, i ≠ .settxt x)
    (hsettm : ∀ f, i ≠ .settm f) (hclrkeys : i ≠ .clrkeys) : StoresNothingBy (exec i) := by
  cases i with
  | wrreg a d => exact absurd rfl (hwrreg a d)
  | wrgrid => exact absurd rfl hwrgrid
  | wrrawb b => exact absurd rfl (hwrrawb b)
  | wrraw x => exact absurd rfl (hwrraw x)
  | settxt x => exact absurd rfl (hsettxt x)
  | settm f => exact absurd rfl (hsettm f)
  | clrkeys => exact absurd rfl hclrkeys
  | start f => exact execStart f
  | stop => exact execStop
  | setmode sel => exact execSetmode sel
  | sendcmd c => exact ok fun s => ⟨cmdEvents c, rfl, .cmd c⟩
  | readbyte => exact ok .readByte
  | scankeys => exact ok .scanKeys
  | initseq => exact ok fun s => ⟨initEvents s.cfg s.mode s.brightness, rfl, .init _ _ _⟩
  | setbrt v => exact ok fun s => ⟨initEvents s.cfg s.mode (clampBright v), rfl, .init _ _ _⟩
  | sendbyte | cmdMode | cmdDataAutoinc | cmdReadKeys | addr | cmdBright => exact sendByte _
  | char2seg | render | decodekey | pushkey | getbrt | gettm | gettxt | getmode | popkey
  | showkeys => exact silent fun _ => rfl

end StoresNothingBy

/-- Settles O56: the events of every other instruction store nothing. -/
theorem otherRequestsReachNoDisplayRegister : Obligations.OtherRequestsReachNoDisplayRegister := by
  unfold Obligations.OtherRequestsReachNoDisplayRegister
  intro i s t hwhole h hwrreg hwrgrid hwrrawb hwrraw hsettxt hsettm hclrkeys x
  have hkeeps : KeepsDisplay s t :=
    StoresNothingBy.exec i hwrreg hwrgrid hwrrawb hwrraw hsettxt hsettm hclrkeys s t h
  exact hkeeps.registerAt_eq hwhole x

end Sys2Proof.DisplayRegisters

namespace Sys2Proof.Encoding

/-! # The decoder and the encoder are inverse to each other (R80, R81, R83, R74, R75, R89)

Each operand form of R81 gets two facts: it reads back the bytes the encoder writes, and it accepts no
other bytes. The two round trips are these facts, row by row. -/

/-! ## Words in bytes -/

/-- The four bytes of a word, least significant first, make the word. -/
theorem word32_bytes (w : BitVec 32) :
    word32 (w.extractLsb' 0 8) (w.extractLsb' 8 8) (w.extractLsb' 16 8) (w.extractLsb' 24 8) = w := by
  rw [word32,
    BitVec.extractLsb'_append_extractLsb'_eq_extractLsb' (start₂ := 24) (start₁ := 16) rfl,
    BitVec.extractLsb'_append_extractLsb'_eq_extractLsb' (start₂ := 16) (start₁ := 8) rfl,
    BitVec.extractLsb'_append_extractLsb'_eq_extractLsb' (start₂ := 8) (start₁ := 0) rfl]
  exact BitVec.extractLsb'_eq_self

/-- Cutting the last byte off a word shifts the bytes above it down by one place. -/
theorem byte_above {w : Nat} (x : BitVec w) (b : Byte) (k : Nat) :
    (x ++ b).extractLsb' (k + 8) 8 = x.extractLsb' k 8 :=
  BitVec.extractLsb'_append_eq_of_le (Nat.le_add_left 8 k)

/-- The bytes of the word made of four bytes are those four. -/
theorem i32Bytes_word32 (b0 b1 b2 b3 : Byte) :
    i32Bytes (word32 b0 b1 b2 b3).toInt = [b0, b1, b2, b3] := by
  have h0 : (word32 b0 b1 b2 b3).extractLsb' 0 8 = b0 := BitVec.extractLsb'_append_eq_right
  have h1 : (word32 b0 b1 b2 b3).extractLsb' 8 8 = b1 :=
    (byte_above _ b0 0).trans BitVec.extractLsb'_append_eq_right
  have h2 : (word32 b0 b1 b2 b3).extractLsb' 16 8 = b2 :=
    (byte_above _ b0 8).trans ((byte_above _ b1 0).trans BitVec.extractLsb'_append_eq_right)
  have h3 : (word32 b0 b1 b2 b3).extractLsb' 24 8 = b3 :=
    (byte_above _ b0 16).trans ((byte_above _ b1 8).trans BitVec.extractLsb'_append_eq_left)
  simp only [i32Bytes, BitVec.ofInt_toInt, h0, h1, h2, h3]

theorem i32Fits_iff (v : Int) : i32Fits v = true ↔ -2147483648 ≤ v ∧ v < 2147483648 := by
  simp [i32Fits]

theorem i32Fits_toInt (w : BitVec 32) : i32Fits w.toInt = true :=
  (i32Fits_iff _).mpr ⟨BitVec.le_toInt w, BitVec.toInt_lt⟩

/-- A length below 65536 is the number its two bytes make. -/
theorem lengthBytes_toNat {n : Nat} (h : n < 65536) :
    (BitVec.ofNat 8 n).toNat + 256 * (BitVec.ofNat 8 (n / 256)).toNat = n := by
  simp only [BitVec.toNat_ofNat]
  omega

/-- A string as long as its two length bytes say has these length bytes, and fits. -/
theorem strBytes_of_length {l0 l1 : Byte} {s : Str} (h : s.length = l0.toNat + 256 * l1.toNat) :
    strFits s = true ∧ strBytes s = l0 :: l1 :: s := by
  have hlow : BitVec.ofNat 8 s.length = l0 := BitVec.eq_of_toNat_eq (by simp; omega)
  have hhigh : BitVec.ofNat 8 (s.length / 256) = l1 := BitVec.eq_of_toNat_eq (by simp; omega)
  exact ⟨decide_eq_true (by omega), by rw [strBytes, hlow, hhigh]⟩

/-! ## Every operand form reads back what the encoder writes -/

theorem opBytes_of_length {n : Nat} {f : List Byte → Instr} {bs : List Byte} (h : bs.length = n) :
    opBytes n f bs = .ok (f bs) := by
  simp [opBytes, h]

theorem opI32_i32Bytes {f : Int → Instr} {v : Int} (h : i32Fits v = true) :
    opI32 f (i32Bytes v) = .ok (f v) := by
  obtain ⟨hlow, hhigh⟩ := (i32Fits_iff v).mp h
  have hv : (BitVec.ofInt 32 v).toInt = v :=
    BitVec.toInt_ofInt_eq_self (by decide) hlow hhigh
  simp only [i32Bytes, opI32, word32_bytes, hv]

theorem opStr_strBytes {f : Str → Instr} {s : Str} (h : strFits s = true) :
    opStr f (strBytes s) = .ok (f s) :=
  opBytes_of_length (lengthBytes_toNat (of_decide_eq_true h)).symm

/-- Two bits select the mode they stand for (R74). -/
theorem bitsOfMode_modeOfBits (mm : BitVec 2) : bitsOfMode (modeOfBits mm) = mm := by
  revert mm; decide

theorem decodeWireByte_cmdMode (m : Mode) : decodeWireByte (0#6 ++ bitsOfMode m) = .ok (.cmdMode m) := by
  cases m <;> rfl

theorem decodeWireByte_cmdBright (b : BitVec 4) : decodeWireByte (0x8#4 ++ b) = .ok (.cmdBright b) := by
  revert b; decide

theorem decodeWireByte_addr (off : BitVec 4) (h : off.toNat ≤ 13) :
    decodeWireByte (0xC#4 ++ off) = .ok (.addr off) := by
  revert off; decide

/-- Decoding the encoding of a well-formed instruction gives it back, row by row. -/
theorem decode_encode (i : Instr) (h : i.wf = true) : decode i.channel (encode i) = .ok i := by
  cases i with
  | render s | settxt s | wrraw s => exact opStr_strBytes h
  | wrrawb b | decodekey b => exact opBytes_of_length (eq_of_beq h)
  | setbrt v => exact opI32_i32Bytes h
  | readbyte | wrgrid | initseq | scankeys | getbrt | gettm | gettxt | getmode | popkey | clrkeys
  | showkeys | stop | sendbyte | sendcmd | char2seg | pushkey | settm | setmode | start | wrreg
  | cmdDataAutoinc | cmdReadKeys => rfl
  | cmdMode m => exact decodeWireByte_cmdMode m
  | cmdBright b => exact decodeWireByte_cmdBright b
  | addr off => exact decodeWireByte_addr off (of_decide_eq_true h)

/-- Settles O38: `decode_encode`. -/
theorem decodeOfEncodeIsIdentity : Obligations.DecodeOfEncodeIsIdentity := by
  unfold Obligations.DecodeOfEncodeIsIdentity
  exact decode_encode

/-! ## No operand form accepts other bytes -/

/-- `bs` on the channel `ch` is the one form of the instruction `i` (R83). -/
def FormOf (ch : Channel) (bs : List Byte) (i : Instr) : Prop :=
  i.wf = true ∧ i.channel = ch ∧ encode i = bs

/-- After the tag `t` the operand reader `op` accepts only the form of the instruction it gives. -/
def Faithful (t : Byte) (op : List Byte → Except DecodeError Instr) : Prop :=
  ∀ (bs : List Byte) (i : Instr), op bs = .ok i → FormOf .port (t :: bs) i

theorem opBytes_ok {n : Nat} {f : List Byte → Instr} {bs : List Byte} {i : Instr}
    (h : opBytes n f bs = .ok i) : bs.length = n ∧ f bs = i := by
  unfold opBytes at h
  split at h
  · cases h
  split at h
  · cases h
  · exact ⟨by omega, Except.ok.inj h⟩

namespace Faithful

variable {t : Byte}

theorem none {i : Instr} (hrow : FormOf .port [t] i) : Faithful t (opNone i)
  | [], _, rfl => hrow

theorem b8 {f : Byte → Instr} (hrow : ∀ b, FormOf .port [t, b] (f b)) : Faithful t (opB8 f)
  | [b], _, rfl => hrow b

theorem b8b8 {f : Byte → Byte → Instr} (hrow : ∀ a b, FormOf .port [t, a, b] (f a b)) :
    Faithful t (opB8B8 f)
  | [a, b], _, rfl => hrow a b

theorem i32 {f : Int → Instr}
    (hrow : ∀ v, i32Fits v = true → FormOf .port (t :: i32Bytes v) (f v)) : Faithful t (opI32 f)
  | [b0, b1, b2, b3], _, rfl => i32Bytes_word32 b0 b1 b2 b3 ▸ hrow _ (i32Fits_toInt _)

theorem bytes {n : Nat} {f : List Byte → Instr}
    (hrow : ∀ bs, bs.length = n → FormOf .port (t :: bs) (f bs)) : Faithful t (opBytes n f) := by
  intro bs i h
  obtain ⟨hlength, rfl⟩ := opBytes_ok h
  exact hrow bs hlength

theorem str {f : Str → Instr}
    (hrow : ∀ s, strFits s = true → FormOf .port (t :: strBytes s) (f s)) : Faithful t (opStr f)
  | l0 :: l1 :: s, i, h => by
    obtain ⟨hlength, rfl⟩ := opBytes_ok h
    obtain ⟨hfits, hbytes⟩ := strBytes_of_length hlength
    exact hbytes ▸ hrow s hfits

end Faithful

/-- A tag's operand reader accepts only the forms of that tag's row (R80). The cases are the rows in the
order of `decodeTag`, grouped by operand form; the last is the unknown tag. -/
theorem faithful_decodeTag (t : Byte) : Faithful t (decodeTag t) := by
  intro rest i h
  unfold decodeTag at h
  split at h
  case h_3 | h_7 | h_9 | h_10 | h_13 | h_15 | h_17 | h_19 | h_21 | h_22 | h_23 | h_26 =>
    exact Faithful.none ⟨rfl, rfl, rfl⟩ rest i h
  case h_1 | h_2 | h_4 | h_12 | h_16 | h_20 | h_25 =>
    exact Faithful.b8 (fun _ => ⟨rfl, rfl, rfl⟩) rest i h
  case h_6 => exact Faithful.b8b8 (fun _ _ => ⟨rfl, rfl, rfl⟩) rest i h
  case h_14 =>
    refine Faithful.i32 (fun _ hfits => ?_) rest i h
    exact ⟨hfits, rfl, rfl⟩
  case h_8 | h_11 => exact Faithful.bytes (fun _ hlength => ⟨beq_of_eq hlength, rfl, rfl⟩) rest i h
  case h_5 | h_18 | h_24 =>
    refine Faithful.str (fun _ hfits => ?_) rest i h
    exact ⟨hfits, rfl, rfl⟩
  case h_27 => cases h

/-- A byte that decodes on the wire is the form of its instruction: it fits the row's pattern, and the
operand is the rest of its bits (R74, R75). -/
theorem formOf_decodeWireByte {b : Byte} {i : Instr} (h : decodeWireByte b = .ok i) :
    FormOf .wire [b] i := by
  have hsplit2 : b.extractLsb' 2 6 ++ b.extractLsb' 0 2 = b :=
    (BitVec.extractLsb'_append_extractLsb'_eq_extractLsb' rfl).trans BitVec.extractLsb'_eq_self
  have hsplit4 : b.extractLsb' 4 4 ++ b.extractLsb' 0 4 = b :=
    (BitVec.extractLsb'_append_extractLsb'_eq_extractLsb' rfl).trans BitVec.extractLsb'_eq_self
  unfold decodeWireByte at h
  split at h
  · next hmode =>
    obtain rfl := Except.ok.inj h
    exact ⟨rfl, rfl, by rw [encode, bitsOfMode_modeOfBits, ← hmode, hsplit2]⟩
  split at h
  · next hdata => obtain rfl := Except.ok.inj h; exact ⟨rfl, rfl, hdata ▸ rfl⟩
  split at h
  · next hkeys => obtain rfl := Except.ok.inj h; exact ⟨rfl, rfl, hkeys ▸ rfl⟩
  split at h
  · next hbright =>
    obtain rfl := Except.ok.inj h
    exact ⟨rfl, rfl, by rw [encode, ← hbright, hsplit4]⟩
  split at h
  · next haddr =>
    obtain ⟨hhigh, hoff⟩ := haddr
    obtain rfl := Except.ok.inj h
    exact ⟨decide_eq_true hoff, rfl, by rw [encode, ← hhigh, hsplit4]⟩
  · cases h

/-- What decodes on a channel is the form of the instruction it decodes to. -/
theorem formOf_decode : {ch : Channel} → {bs : List Byte} → {i : Instr} → decode ch bs = .ok i →
    FormOf ch bs i
  | .port, t :: rest, i, h => faithful_decodeTag t rest i h
  | .wire, [_], _, h => formOf_decodeWireByte h

/-- Settles O39: `formOf_decode`. -/
theorem encodeOfDecodeIsIdentity : Obligations.EncodeOfDecodeIsIdentity := by
  unfold Obligations.EncodeOfDecodeIsIdentity
  exact fun _ _ _ => formOf_decode

/-! ## Words of the spec -/

/-- Settles O40: the eight words are the encodings of their instructions, and decode by `decode_encode`. -/
theorem specWordsDecode : Obligations.SpecWordsDecode := by
  unfold Obligations.SpecWordsDecode
  have hminus : encode (.setbrt (-3)) = [0x41, 0xFD, 0xFF, 0xFF, 0xFF] := by decide
  exact ⟨decode_encode (.sendbyte 0x8A) rfl, decode_encode (.render [0x31, 0x32, 0x2E, 0x35]) rfl,
    decode_encode (.wrreg 0xC2 0xDB) rfl,
    decode_encode (.decodekey [0x00, 0x10, 0x00, 0x00, 0x00]) rfl,
    hminus ▸ decode_encode (.setbrt (-3)) (by decide), decode_encode (.setmode 9) rfl,
    decode_encode (.start 1) rfl, rfl, rfl, decode_encode (.cmdBright 0xA) rfl⟩

end Sys2Proof.Encoding

namespace Sys2Proof.WireBytes

open Sys2Proof.Machine Sys2Proof.Safety Sys2Proof.Encoding

/-! # The WIRE rows, driven alone (R74, R75) -/

/-- The byte that a WIRE row stands for under the parameters and the mode in force; none for a request. -/
def wireValue (cfg : Params) (m : Mode) : Instr → Option Byte
  | .cmdMode n => some (perMode cfg.cmdMode n)
  | .cmdDataAutoinc => some cfg.cmdDataAutoinc
  | .cmdReadKeys => some cfg.cmdReadKeys
  | .addr off => some (addressAt cfg m off.toNat)
  | .cmdBright v => some cfg.cmdBright[v.toNat]
  | _ => none

/-- SENDBYTE's events leave CLOCK high and DATA at bit 7 (R100). -/
theorem sendByte_eq (b : Byte) (s : State) :
    sendByte b s =
      { s with
        pins := { s.pins with clk := true, dio := b.getLsbD 7 }
        trace := s.trace ++ shiftOut b } := by
  rw [sendByte, emit, pinsAfter_byteEvents, shiftOut_eq]

/-- A WIRE row is served as SENDBYTE of its byte. -/
theorem exec_of_wireValue {i : Instr} {b : Byte} {s : State} (hruns : engineRuns s.phase = true)
    (h : wireValue s.cfg s.mode i = some b) :
    exec i s = .next (respondOk .none (sendByte b s)) := by
  cases i with
  | cmdMode | cmdDataAutoinc | cmdReadKeys =>
    obtain rfl := Option.some.inj h
    simp only [exec, execCmdMode, execCmdDataAutoinc, execCmdReadKeys, serve_running _ s hruns]
  | addr off =>
    obtain rfl := Option.some.inj h
    simp only [exec, execAddr, serve_running _ s hruns, deviceAddr_eq]
  | cmdBright v =>
    obtain rfl := Option.some.inj h
    simp only [exec, execCmdBright, serve_running _ s hruns]
    rfl
  | _ => cases h

/-- In a running engine a WIRE row's byte is shifted out, and the row is answered OK. -/
theorem exec_sends_wireValue {i : Instr} {b : Byte} {s : State} (hruns : engineRuns s.phase = true)
    (h : wireValue s.cfg s.mode i = some b) :
    exec i s = .next (answered .ok .none
      { s with
        pins := { s.pins with clk := true, dio := b.getLsbD 7 }
        trace := s.trace ++ shiftOut b }) := by
  rw [exec_of_wireValue hruns h, sendByte_eq]
  rfl

/-- Every instruction but START and STOP needs an engine. -/
theorem needsEngine {i : Instr} (hstart : ∀ f, i ≠ .start f) (hstop : i ≠ .stop) : NeedsEngine i :=
  fun s hoff => exec_not_running i s hoff hstart hstop

theorem needsEngine_of_wire {i : Instr} (h : i.channel = .wire) : NeedsEngine i :=
  needsEngine (fun _ he => by cases he ▸ h) (fun he => by cases he ▸ h)

/-- Settles O26: each row's byte is its `wireValue`. -/
theorem wireBytesGoThroughSendByte : Obligations.WireBytesGoThroughSendByte := by
  unfold Obligations.WireBytesGoThroughSendByte
  refine ⟨fun i b s hruns hrow => exec_sends_wireValue hruns ?_, fun _ => needsEngine_of_wire rfl,
    needsEngine_of_wire rfl, needsEngine_of_wire rfl, fun _ => needsEngine_of_wire rfl,
    fun _ => needsEngine_of_wire rfl⟩
  obtain ⟨m, rfl, rfl⟩ | ⟨rfl, rfl⟩ | ⟨rfl, rfl⟩ | ⟨off, rfl, rfl⟩ | ⟨v, rfl, rfl⟩ := hrow <;> rfl

/-- BASE is 0xC0 in every mode of the default parameters, so adding an offset sets the low bits (R75). -/
theorem addressAt_default (m : Mode) (off : BitVec 4) :
    addressAt Config.defaultParams m off.toNat = 0xC#4 ++ off := by
  cases m <;> (revert off; decide)

theorem cmdBright_default (v : BitVec 4) :
    Config.defaultParams.cmdBright[v.toNat] = 0x8#4 ++ v := by
  revert v; decide

/-- Under the default parameters a WIRE row stands for its own encoding (log 3). -/
theorem wireValue_default (m : Mode) {i : Instr} (h : i.channel = .wire) :
    wireValue Config.defaultParams m i = (encode i).head? := by
  cases i with
  | cmdMode n => cases n <;> rfl
  | cmdDataAutoinc | cmdReadKeys => rfl
  | addr off => exact congrArg some (addressAt_default m off)
  | cmdBright v => exact congrArg some (cmdBright_default v)
  | _ => cases h

/-- Settles O27: a byte that decodes on the wire is the encoding of its instruction. -/
theorem defaultWireBytesSendThemselves : Obligations.DefaultWireBytesSendThemselves := by
  unfold Obligations.DefaultWireBytesSendThemselves
  intro b i s hdecode hcfg hruns
  obtain ⟨-, hchannel, hencode⟩ := formOf_decode hdecode
  have hvalue : wireValue s.cfg s.mode i = some b := by
    rw [hcfg, wireValue_default s.mode hchannel, hencode, List.head?_cons]
  exact exec_sends_wireValue hruns hvalue

end Sys2Proof.WireBytes

namespace Sys2Proof.FormCheck

open Sys2Proof.Machine

/-! # The form check of a request (R83, R175, R209) -/

/-- The turn of a caller that waits for no STOP serves its oldest request under its grant. -/
theorem step_of_takeRequest {c : Nat} {r : Request} {later : List Agent} {rest : List Request}
    {s : State} (ho : s.owner = .none) (hturns : s.turns = .caller c :: later)
    (hwait : Owner.caller c ∉ s.stopWait) (htake : takeRequest c s.pending = some (r, rest)) :
    step s = serveRequest r { s with turns := later, pending := rest, owner := .caller c } := by
  simp only [step, ho, if_true, nextTurn, hturns, agentTurn, callerTurn, if_neg hwait, htake,
    takeGrant]

theorem serveRequest_of_error {r : Request} {e : DecodeError} (h : decode r.channel r.bytes = .error e)
    (s : State) : serveRequest r s = .next (release (fail .eMalformed s)) := by
  simp only [serveRequest, h, finishServe]

/-- Settles O37: the form check comes before the phase is looked at. -/
theorem undecodableRequestIsMalformed : Obligations.UndecodableRequestIsMalformed := by
  unfold Obligations.UndecodableRequestIsMalformed
  intro c r later rest e s ho hturns hwait htake hbad
  rw [step_of_takeRequest ho hturns hwait htake, serveRequest_of_error hbad]
  simp only [fail, respond, release, ho]

end Sys2Proof.FormCheck

namespace Sys2Proof.SerialFraming

open Sys2Proof.Machine Sys2Proof.Safety Sys2Proof.WireBytes

/-! # The serial framing engine (R100 to R102) and its settle delays (R105, R249) -/

/-! ## The primitive requests in a running engine (R175, R190) -/

section Running

variable {s : State} (hruns : engineRuns s.phase = true)
include hruns

theorem exec_sendbyte (b : Byte) :
    exec (.sendbyte b) s = .next (respondOk .none (sendByte b s)) := by
  rw [exec, execSendbyte, serve_running _ s hruns]

theorem exec_sendcmd (c : Byte) :
    exec (.sendcmd c) s = .next (respondOk .none (sendCmd c s)) := by
  rw [exec, execSendcmd, serve_running _ s hruns]

theorem exec_readbyte :
    exec .readbyte s = .next (respondOk (.b8 (readByte s).1) (readByte s).2) := by
  rw [exec, execReadbyte, serve_running _ s hruns]

theorem exec_wrreg (a d : Byte) :
    exec (.wrreg a d) s = .next (respondOk .none (wrReg a d s)) := by
  rw [exec, execWrreg, serve_running _ s hruns]

theorem exec_wrgrid : exec .wrgrid s = .next (respondOk .none (wrGrid s)) := by
  rw [exec, execWrgrid, serve_running _ s hruns]

theorem exec_wrrawb (bs : List Byte) :
    exec (.wrrawb bs) s = .next (respondOk .none (wrRawB bs s)) := by
  rw [exec, execWrrawb, serve_running _ s hruns]

theorem exec_initseq : exec .initseq s = .next (respondOk .none (initSeq s)) := by
  rw [exec, execInitseq, serve_running _ s hruns]

theorem exec_scankeys :
    exec .scankeys s = .next (respondOk (.bytes (scanKeys s).1) (scanKeys s).2) := by
  rw [exec, execScankeys, serve_running _ s hruns]

end Running

/-! ## SENDBYTE and SENDCMD -/

/-- SENDCMD's one strobe window leaves STROBE and CLOCK high and DATA at bit 7 (R101). -/
theorem sendCmd_drove (c : Byte) (s : State) : sendCmd c s = drove (commandOut c) (c.getLsbD 7) s := by
  rw [sendCmd, commandOut_eq, emit_drove _ _ _ (pinsAfter_cmdEvents s.pins c)]

theorem carries_command (c : Byte) : Carries (commandOut c) [commandTx c] :=
  carries_of_view (view_cmdEvents true [] c)

/-- Settles O1: `sendByte_eq` in the envelope. -/
theorem sendByteShiftsBitsLsbFirst : Obligations.SendByteShiftsBitsLsbFirst := by
  unfold Obligations.SendByteShiftsBitsLsbFirst
  refine ⟨fun b s hruns => ⟨?_, length_byteEvents b⟩,
    fun b => ⟨needsEngine nofun nofun, rfl, rfl⟩⟩
  rw [exec_sendbyte hruns, sendByte_eq]
  rfl

/-- Settles O2: `sendCmd_drove` in the envelope. -/
theorem sendCmdIsOneCommandTransaction : Obligations.SendCmdIsOneCommandTransaction := by
  unfold Obligations.SendCmdIsOneCommandTransaction
  refine ⟨fun c s hruns => ⟨?_, length_cmdEvents c, carries_command c⟩,
    fun c => ⟨needsEngine nofun nofun, rfl, rfl⟩⟩
  rw [exec_sendcmd hruns, sendCmd_drove]
  rfl

/-! ## READBYTE -/

/-- The first read cell brings CLOCK high, wherever it was; the cells after it leave the lines as they
are (R72). -/
theorem pinsAfter_readEvents_cons (p : Pins) (x : Sample) (xs : List Sample) :
    pinsAfter p (readEvents (x :: xs)) = { p with clk := true } := by
  have hfirst : pinsAfter p (readCell x) = { p with clk := true } := rfl
  rw [readEvents, List.flatMap_cons, pinsAfter_append, hfirst]
  exact pinsAfter_readEvents _ xs rfl

/-- READBYTE gives the Device's next byte; it uses eight answers up and leaves CLOCK high (R102). -/
theorem readByte_clockedIn (s : State) :
    readByte s = (deviceByte s 0, usedSamples 8
      { s with
        pins := { s.pins with clk := true }
        trace := s.trace ++ clockedIn s 0 8 }) := by
  have hpins : pinsAfter s.pins (readByteEvents 1 s) = { s.pins with clk := true } :=
    pinsAfter_readEvents_cons s.pins (deviceStream s 0) _
  rw [readByte_eq, emit, hpins, ← clockedIn_eq]

theorem length_clockedIn_eight (s : State) : (clockedIn s 0 8).length = 40 := by
  rw [clockedIn_eq s 1, readByteEvents, length_readEvents, List.length_map, List.length_range]

/-- Settles O3: `readByte_clockedIn` in the envelope. -/
theorem readByteMakesByteOfEightSamples : Obligations.ReadByteMakesByteOfEightSamples := by
  unfold Obligations.ReadByteMakesByteOfEightSamples
  refine ⟨fun s hruns => ⟨?_, length_clockedIn_eight s, fun i hi => ?_⟩,
    needsEngine nofun nofun, rfl, rfl⟩
  · rw [exec_readbyte hruns, readByte_clockedIn]
    rfl
  · rw [deviceByte_bit s 0 i hi, sampleBit_eq, Nat.mul_zero, Nat.zero_add]

/-! ## Settle delays in lists of events -/

@[simp] theorem settleCount_append (es fs : List PinEvent) :
    settleCount (es ++ fs) = settleCount es + settleCount fs := List.countP_append

/-- Three delays for each write cell (R71). -/
@[simp] theorem settleCount_byteEvents (b : Byte) : settleCount (byteEvents b) = 24 := rfl

@[simp] theorem settleCount_cmdEvents (c : Byte) : settleCount (cmdEvents c) = 27 := rfl

@[simp] theorem settleCount_wrEvents (a d : Byte) : settleCount (wrEvents a d) = 51 := rfl

@[simp] theorem settleCount_initEvents (cfg : Params) (m : Mode) (b : Fin 16) :
    settleCount (initEvents cfg m b) = 81 := by
  simp only [initEvents, settleCount_append, settleCount_cmdEvents]

/-- Lists of events of one count, one list for each element. -/
theorem settleCount_flatMap {α : Type} {f : α → List PinEvent} {n : Nat}
    (h : ∀ x, settleCount (f x) = n) (l : List α) :
    settleCount (l.flatMap f) = n * l.length := by
  induction l with
  | nil => rfl
  | cons x l ih =>
    rw [List.flatMap_cons, settleCount_append, h, ih, List.length_cons, Nat.mul_succ, Nat.add_comm]

/-- Two delays for each read cell (R72). -/
@[simp] theorem settleCount_readByteEvents (n : Nat) (s : State) :
    settleCount (readByteEvents n s) = 16 * n := by
  rw [readByteEvents, readEvents, settleCount_flatMap (n := 2) fun _ => rfl, List.length_map,
    List.length_range, ← Nat.mul_assoc]

@[simp] theorem settleCount_gridEvents (cfg : Params) (m : Mode) (g : Vector Byte 7) :
    settleCount (gridEvents cfg m g) = 51 * nGrids m := by
  rw [gridEvents, settleCount_flatMap fun _ => settleCount_wrEvents _ _, List.length_range]

@[simp] theorem settleCount_rawEvents (cfg : Params) (m : Mode) (b : List Byte) :
    settleCount (rawEvents cfg m b) = 714 := by
  rw [rawEvents, settleCount_flatMap fun _ => settleCount_wrEvents _ _, List.length_range]

/-- The command and 40 read cells, and three delays around them (R140). -/
@[simp] theorem settleCount_scanEvents (s : State) : settleCount (scanEvents s) = 107 := by
  have hopen : settleCount (rdOpenEvents s.cfg.cmdReadKeys) = 26 := rfl
  have hclose : settleCount rdCloseEvents = 1 := rfl
  simp only [scanEvents, settleCount_append, hopen, settleCount_readByteEvents, hclose]

/-! ## Settle delays of requests -/

/-- Serving `i` in `s` adds `n` settle delays to the trace. -/
def AddsSettles (s : State) (i : Instr) (n : Nat) : Prop :=
  ∃ t : State, exec i s = .next t ∧ settleCount t.trace = settleCount s.trace + n

/-- A request that is answered OK after emitting `es` adds the delays of `es`. -/
theorem addsSettles_of_exec {i : Instr} {s t : State} {v : Value} {es : List PinEvent} {n : Nat}
    (hexec : exec i s = .next (respondOk v t)) (htrace : t.trace = s.trace ++ es)
    (hcount : settleCount es = n) : AddsSettles s i n :=
  ⟨_, hexec, by rw [respondOk_trace, htrace, settleCount_append, hcount]⟩

theorem readByte_trace (s : State) : (readByte s).2.trace = s.trace ++ readByteEvents 1 s := by
  rw [readByte_eq]
  rfl

theorem scanKeys_trace (s : State) : (scanKeys s).2.trace = s.trace ++ scanEvents s := by
  rw [scanKeys_eq]
  rfl

/-- Settles O10: request by request, the delays of the events it emits. -/
theorem settleDelaysPerOperation : Obligations.SettleDelaysPerOperation := by
  unfold Obligations.SettleDelaysPerOperation
  intro s b a d c bs hruns
  have hsendbyte : AddsSettles s (.sendbyte b) 24 :=
    addsSettles_of_exec (exec_sendbyte hruns b) (emit_trace _ s) (settleCount_byteEvents b)
  have hsendcmd : AddsSettles s (.sendcmd c) 27 :=
    addsSettles_of_exec (exec_sendcmd hruns c) (emit_trace _ s) (settleCount_cmdEvents c)
  have hreadbyte : AddsSettles s .readbyte 16 :=
    addsSettles_of_exec (exec_readbyte hruns) (readByte_trace s) (settleCount_readByteEvents 1 s)
  have hwrreg : AddsSettles s (.wrreg a d) 51 :=
    addsSettles_of_exec (exec_wrreg hruns a d) (emit_trace _ s) (settleCount_wrEvents a d)
  have hwrgrid : AddsSettles s .wrgrid (51 * nGrids s.mode) :=
    addsSettles_of_exec (exec_wrgrid hruns) (emit_trace _ s)
      (settleCount_gridEvents s.cfg s.mode s.grid)
  have hwrrawb : AddsSettles s (.wrrawb bs) 714 :=
    addsSettles_of_exec (exec_wrrawb hruns bs) (emit_trace _ s)
      (settleCount_rawEvents s.cfg s.mode bs)
  have hinitseq : AddsSettles s .initseq 81 :=
    addsSettles_of_exec (exec_initseq hruns) (emit_trace _ s)
      (settleCount_initEvents s.cfg s.mode s.brightness)
  have hscankeys : AddsSettles s .scankeys 107 :=
    addsSettles_of_exec (exec_scankeys hruns) (scanKeys_trace s) (settleCount_scanEvents s)
  simp only [List.forall_mem_cons]
  exact ⟨hsendbyte, hsendcmd, hreadbyte, hwrreg, hwrgrid, hwrrawb, hinitseq, hscankeys, nofun⟩

end Sys2Proof.SerialFraming

namespace Sys2Proof.DisplayEncoding

open Sys2Proof.Machine Sys2Proof.Safety Sys2Proof.Encoding Sys2Proof.WireBytes
  Sys2Proof.SerialFraming

/-! # The display encoder (R120 to R126) -/

/-! ## RENDER -/

/-- The loop of RENDER fills grid after grid with the cells of the logical characters (R121). -/
theorem renderCells_eq (cfg : Params) (n : Nat) (text : Str) :
    renderCells cfg n text = ((logicalChars text).take n).map (cellOf cfg) := by
  fun_induction renderCells cfg n text with
  | case1 text => rfl
  | case2 n => rfl
  | case3 n => simp [logicalChars]
  | case4 n c hchr => simp [logicalChars, hchr, cellOf]
  | case5 n d rest ih => rw [ih, logicalChars, if_pos rfl]
  | case6 n c rest hchr ih => simp [logicalChars, hchr, cellOf, ih]
  | case7 n c d rest hchr hnodot ih => simp [logicalChars, hchr, hnodot, cellOf, ih]

theorem renderGrid_get (cfg : Params) (m : Mode) (text : Str) {i : Fin 7} (hi : i.val < nGrids m) :
    (renderGrid cfg m text)[i] = (((logicalChars text)[i.val]?).map (cellOf cfg)).getD 0x00#8 := by
  rw [renderGrid, gridOf_get, renderCells_eq, List.getD_eq_getElem?_getD, List.getElem?_map,
    List.getElem?_take_of_lt hi]

theorem exec_render {s : State} (hruns : engineRuns s.phase = true) (text : Str) :
    exec (.render text) s =
      .next (respondOk (.bytes (renderGrid s.cfg s.mode text).toList) s) := by
  rw [exec, execRender, serve_running _ s hruns]

/-- Settles O5: `renderGrid_get` below N, `renderGrid_blank` from N on. -/
theorem renderPairsEachCharacterWithItsDot : Obligations.RenderPairsEachCharacterWithItsDot := by
  unfold Obligations.RenderPairsEachCharacterWithItsDot
  refine ⟨fun cfg m text i => ?_, fun text s hruns => exec_render hruns text,
    fun text => ⟨needsEngine nofun nofun, fun hfits => ⟨rfl, ?_⟩⟩⟩
  · split
    · next hi => exact renderGrid_get cfg m text hi
    · next hi => exact renderGrid_blank cfg m text i (Nat.not_lt.mp hi)
  · exact decode_encode (.render text) (decide_eq_true hfits)

/-! ## WRGRID, WRRAWB, WRREG and INITSEQ -/

/-- Settles O7: `wrGrid_drove` in the envelope. -/
theorem wrGridSendsFirstGridsInOrder : Obligations.WrGridSendsFirstGridsInOrder := by
  unfold Obligations.WrGridSendsFirstGridsInOrder
  refine ⟨fun s hruns => ⟨gridEvents s.cfg s.mode s.grid, ?_, (gridOut_eq ..).symm,
    length_gridEvents .., carries_grid ..⟩, needsEngine nofun nofun, rfl, rfl⟩
  rw [exec_wrgrid hruns, wrGrid_drove]
  rfl

/-- Settles O8: `wrRawB_drove` in the envelope. -/
theorem wrRawBWritesFourteenRegisters : Obligations.WrRawBWritesFourteenRegisters := by
  unfold Obligations.WrRawBWritesFourteenRegisters
  refine ⟨fun b s _ hruns => ⟨rawEvents s.cfg s.mode b, ?_, (rawOut_eq ..).symm,
    length_rawEvents .., carries_raw ..⟩,
    fun b => ⟨needsEngine nofun nofun, fun hlength => ⟨rfl, opBytes_of_length hlength⟩⟩⟩
  rw [exec_wrrawb hruns, wrRawB_drove]
  rfl

/-- WRREG's one strobe window leaves STROBE and CLOCK high, and DATA at bit 7 of the data byte
(R122). -/
theorem wrReg_drove (a d : Byte) (s : State) :
    wrReg a d s = drove (writeOut a d) (d.getLsbD 7) s := by
  rw [wrReg, writeOut_eq, emit_drove _ _ _ (pinsAfter_wrEvents s.pins a d)]

theorem carries_write (a d : Byte) : Carries (writeOut a d) [writeTx a d] :=
  carries_of_view (view_wrEvents true [] a d)

/-- Settles O6: `wrReg_drove` in the envelope. -/
theorem wrRegIsOneWriteTransaction : Obligations.WrRegIsOneWriteTransaction := by
  unfold Obligations.WrRegIsOneWriteTransaction
  refine ⟨fun a d s hruns => ⟨?_, length_wrEvents a d, carries_write a d⟩,
    fun a d => ⟨needsEngine nofun nofun, rfl, rfl⟩⟩
  rw [exec_wrreg hruns, wrReg_drove]
  rfl

/-- Settles O9: `initSeq_drove` in the envelope. -/
theorem initSeqSendsModeDataBrightness : Obligations.InitSeqSendsModeDataBrightness := by
  unfold Obligations.InitSeqSendsModeDataBrightness
  refine ⟨fun s hruns => ⟨initEvents s.cfg s.mode s.brightness, ?_, (initOut_eq ..).symm,
    length_initEvents .., carries_init ..⟩, needsEngine nofun nofun, rfl, rfl⟩
  rw [exec_initseq hruns, initSeq_drove]
  rfl

/-! ## HEXBYTES -/

/-- The byte of two hex characters, high nibble first (R77). -/
def hexPairByte (hi lo : Chr) : Byte := BitVec.ofNat 8 (hexDigitVal hi * 16 + hexDigitVal lo)

theorem hexVal_eq (c : Chr) : hexVal c = if isHexChr c then some (hexDigitVal c) else none := by
  revert c; decide

theorem isHexChr_of_hexVal {c : Chr} {v : Nat} (h : hexVal c = some v) : isHexChr c = true := by
  rw [hexVal_eq] at h
  exact (Option.ite_none_right_eq_some.mp h).1

theorem hexPairs_cons_cons {hi lo : Chr} (hhi : isHexChr hi = true) (hlo : isHexChr lo = true)
    (rest : Str) : hexPairs (hi :: lo :: rest) = (hexPairs rest).map (hexPairByte hi lo :: ·) := by
  rw [hexPairs, hexVal_eq, hexVal_eq, if_pos hhi, if_pos hlo]
  cases hexPairs rest <;> rfl

/-- `2*n` hex characters make `n` bytes, byte `j` of characters `2*j` and `2*j + 1`. -/
theorem hexPairs_of_hex {n : Nat} {t : Str} (hlength : t.length = 2 * n)
    (hhex : ∀ c ∈ t, isHexChr c = true) :
    hexPairs t = some ((List.range n).map fun j =>
      hexPairByte (t.getD (2 * j) 0x00#8) (t.getD (2 * j + 1) 0x00#8)) := by
  induction n generalizing t with
  | zero => rw [List.length_eq_zero_iff.mp hlength]; rfl
  | succ n ih =>
    match t, hlength with
    | hi :: lo :: rest, hlength =>
      simp only [List.forall_mem_cons] at hhex
      obtain ⟨hhi, hlo, hrest⟩ := hhex
      have htail := ih (t := rest) (by simpa [Nat.mul_succ] using hlength) hrest
      rw [hexPairs_cons_cons hhi hlo, htail, List.range_succ_eq_map, List.map_cons, List.map_map]
      rfl

/-- Every character of a string that HEXBYTES makes bytes of is a hex character. -/
theorem isHexChr_of_hexPairs {t : Str} {bs : List Byte} (h : hexPairs t = some bs) :
    ∀ c ∈ t, isHexChr c = true := by
  fun_induction hexPairs t generalizing bs with
  | case1 => exact nofun
  | case2 c => cases h
  | case3 hi lo rest hv lv tail htail hlo hhi ih =>
    simp only [List.forall_mem_cons]
    exact ⟨isHexChr_of_hexVal hhi, isHexChr_of_hexVal hlo, ih htail⟩
  | case4 => cases h

/-- Settles O21: `hexPairs_of_hex`, and `isHexChr_of_hexPairs` for the strings refused. -/
theorem hexBytesAcceptsTwentyEightHexCharacters :
    Obligations.HexBytesAcceptsTwentyEightHexCharacters := by
  unfold Obligations.HexBytesAcceptsTwentyEightHexCharacters
  refine ⟨fun t hlength hhex => ?_, fun t hbad => ?_⟩
  · refine ⟨_, (if_pos hlength).trans (hexPairs_of_hex (n := 14) hlength hhex), by simp,
      fun j hj => ?_⟩
    simp [List.getD_eq_getElem?_getD, hj, hexPairByte]
  · rw [hexBytes]
    split
    · next hlength =>
      obtain ⟨c, hc, hnothex⟩ := hbad.resolve_left (not_not_intro hlength)
      refine Option.eq_none_iff_forall_ne_some.mpr fun bs hbs => ?_
      exact Bool.false_ne_true (hnothex.symm.trans (isHexChr_of_hexPairs hbs c hc))
    · rfl

/-! ## CHAR2SEG -/

theorem charToSeg_digit (cfg : Params) (d : Fin 10) :
    charToSeg cfg (BitVec.ofNat 8 (0x30 + d.val)) = digitSeg cfg d := by
  have hcode : (BitVec.ofNat 8 (0x30 + d.val)).toNat = 0x30 + d.val :=
    Nat.mod_eq_of_lt (by omega)
  simp only [charToSeg, hcode]
  rw [dif_pos (by omega)]
  simp only [Nat.add_sub_cancel_left, Fin.eta]

theorem charToSeg_upper (cfg : Params) (l : Fin 26) :
    charToSeg cfg (BitVec.ofNat 8 (0x41 + l.val)) = letterSeg cfg l := by
  have hcode : (BitVec.ofNat 8 (0x41 + l.val)).toNat = 0x41 + l.val :=
    Nat.mod_eq_of_lt (by omega)
  simp only [charToSeg, hcode]
  rw [dif_neg (by omega), dif_pos (by omega)]
  simp only [Nat.add_sub_cancel_left, Fin.eta]

theorem charToSeg_lower (cfg : Params) (l : Fin 26) :
    charToSeg cfg (BitVec.ofNat 8 (0x61 + l.val)) = letterSeg cfg l := by
  have hcode : (BitVec.ofNat 8 (0x61 + l.val)).toNat = 0x61 + l.val :=
    Nat.mod_eq_of_lt (by omega)
  simp only [charToSeg, hcode]
  rw [dif_neg (by omega), dif_neg (by omega), dif_pos (by omega)]
  simp only [Nat.add_sub_cancel_left, Fin.eta]

theorem charToSeg_other (cfg : Params) {c : Chr} (hdigit : ¬ (0x30 ≤ c.toNat ∧ c.toNat ≤ 0x39))
    (hupper : ¬ (0x41 ≤ c.toNat ∧ c.toNat ≤ 0x5A)) (hlower : ¬ (0x61 ≤ c.toNat ∧ c.toNat ≤ 0x7A)) :
    charToSeg cfg c = 0x00#8 := by
  rw [charToSeg, dif_neg hdigit, dif_neg hupper, dif_neg hlower]

theorem exec_char2seg {s : State} (hruns : engineRuns s.phase = true) (c : Chr) :
    exec (.char2seg c) s = .next (respondOk (.b8 (charToSeg s.cfg c)) s) := by
  rw [exec, execChar2seg, serve_running _ s hruns]

/-- Settles O4: a lemma for each range of codes, and the request in the envelope. -/
theorem char2SegFollowsTables : Obligations.Char2SegFollowsTables := by
  unfold Obligations.Char2SegFollowsTables
  exact ⟨charToSeg_digit, fun cfg l => ⟨charToSeg_upper cfg l, charToSeg_lower cfg l⟩,
    fun cfg _ => charToSeg_other cfg, charToSeg_bit7, fun c s hruns => exec_char2seg hruns c,
    fun c => ⟨needsEngine nofun nofun, rfl, rfl⟩⟩

end Sys2Proof.DisplayEncoding

namespace Sys2Proof.KeyMatrix

open Sys2Proof.Machine Sys2Proof.Safety Sys2Proof.Encoding Sys2Proof.WireBytes
  Sys2Proof.SerialFraming

/-! # The key-matrix scanner (R140 to R142) -/

/-! ## SCANKEYS -/

/-- SCANKEYS gives the Device's next five bytes; it uses 40 answers up and leaves the lines idle
(R140). -/
theorem scanKeys_idle (s : State) :
    scanKeys s = ((List.range 5).map (deviceByte s), usedSamples 40
      { s with pins := Pins.idle, trace := s.trace ++ scanEvents s }) := by
  rw [scanKeys_eq, emit, pinsAfter_scanEvents]

theorem carries_scan (s : State) :
    Carries (scanEvents s) [⟨[s.cfg.cmdReadKeys], (List.range 5).map (deviceByte s)⟩] :=
  carries_of_view (view_scanEvents true [] s)

/-- Settles O11: `scanKeys_idle` in the envelope. -/
theorem scanKeysReadsFiveBytesInOneWindow : Obligations.ScanKeysReadsFiveBytesInOneWindow := by
  unfold Obligations.ScanKeysReadsFiveBytesInOneWindow
  refine ⟨fun s hruns => ⟨scanEvents s, ?_, (scanOut_eq s).symm, length_scanEvents s,
    carries_scan s⟩, needsEngine nofun nofun, rfl, rfl⟩
  rw [exec_scankeys hruns, scanKeys_idle]
  rfl

/-! ## DECODEKEY -/

/-- A key is given where an entry with that key is asserted and no entry before it is (R141). -/
theorem decodeKey_eq_some_iff (keymap : List KeyEntry) (k : List Byte) (c : Chr) :
    decodeKey keymap k = some c ↔
      ∃ pre e post, keymap = pre ++ e :: post ∧ keyAsserted k e = true ∧ e.key = c ∧
        ∀ f ∈ pre, keyAsserted k f = false := by
  simp only [decodeKey, Option.map_eq_some_iff, List.find?_eq_some_iff_append,
    Bool.not_eq_true']
  constructor
  · rintro ⟨e, ⟨hset, pre, post, hsplit, hclear⟩, hkey⟩
    exact ⟨pre, e, post, hsplit, hset, hkey, hclear⟩
  · rintro ⟨pre, e, post, hsplit, hset, hkey, hclear⟩
    exact ⟨e, ⟨hset, pre, post, hsplit, hclear⟩, hkey⟩

theorem decodeKey_eq_none_iff (keymap : List KeyEntry) (k : List Byte) :
    decodeKey keymap k = none ↔ ∀ f ∈ keymap, keyAsserted k f = false := by
  simp only [decodeKey, Option.map_eq_none_iff, List.find?_eq_none, Bool.not_eq_true]

theorem exec_decodekey {s : State} (hruns : engineRuns s.phase = true) (k : List Byte) :
    exec (.decodekey k) s = .next (respondOk (.opt8 (decodeKey s.cfg.keymap k)) s) := by
  rw [exec, execDecodekey, serve_running _ s hruns]

/-- Settles O12: the two characterisations of `decodeKey`, and the request in the envelope. -/
theorem decodeKeyTakesFirstEntryInTableOrder :
    Obligations.DecodeKeyTakesFirstEntryInTableOrder := by
  unfold Obligations.DecodeKeyTakesFirstEntryInTableOrder
  exact ⟨decodeKey_eq_some_iff, decodeKey_eq_none_iff, fun k s hruns => exec_decodekey hruns k,
    fun k => ⟨needsEngine nofun nofun, fun hlength => ⟨rfl, opBytes_of_length hlength⟩⟩⟩

/-! ## PUSHKEY -/

theorem pushKey_of_lt {s : State} (hroom : s.queue.length < s.cfg.queueCap.val) (c : Chr) :
    pushKey c s = { s with queue := s.queue ++ [c] } := by
  rw [pushKey, pushQueue, if_pos hroom]

theorem pushKey_of_le {s : State} (hfull : s.cfg.queueCap.val ≤ s.queue.length) (c : Chr) :
    pushKey c s = s := by
  rw [pushKey, pushQueue, if_neg (Nat.not_lt.mpr hfull)]

theorem exec_pushkey {s : State} (hruns : engineRuns s.phase = true) (c : Chr) :
    exec (.pushkey c) s = .next (respondOk .none (pushKey c s)) := by
  rw [exec, execPushkey, serve_running _ s hruns]

/-- Settles O13: `pushKey` below its capacity and at it, in the envelope. -/
theorem pushKeyAppendsOrDropsNewest : Obligations.PushKeyAppendsOrDropsNewest := by
  unfold Obligations.PushKeyAppendsOrDropsNewest
  refine ⟨fun c s hruns => ⟨fun hroom => ?_, fun hfull => ?_⟩,
    fun c => ⟨needsEngine nofun nofun, rfl, rfl⟩⟩
  · rw [exec_pushkey hruns, pushKey_of_lt hroom]
    rfl
  · rw [exec_pushkey hruns, pushKey_of_le hfull]
    rfl

end Sys2Proof.KeyMatrix

namespace Sys2Proof.PollingLoop

open Sys2Proof.Machine Sys2Proof.Safety Sys2Proof.KeyMatrix

/-! # One turn of the polling loop (R155 to R162) -/

/-- A turn of the loop with the grant free is the loop's step, the turn used up (R33, R155). -/
theorem step_loop {rest : List Agent} {s : State} (ho : s.owner = .none)
    (hturns : s.turns = .loop :: rest) : step s = .next (loopStep { s with turns := rest }) := by
  simp only [step, ho, if_true, nextTurn, hturns, agentTurn]

/-- Settles O32: in Startup and in Steady the stop request is looked at first. -/
theorem stopRequestHaltsTheLoop : Obligations.StopRequestHaltsTheLoop := by
  unfold Obligations.StopRequestHaltsTheLoop
  intro rest s ho hturns hactive hreq
  rw [step_loop ho hturns]
  cases hphase : s.phase with
  | startup k | steady => simp only [loopStep, hreq, if_true, haltStep]
  | off | failed | halted =>
    rw [hphase] at hactive
    cases hactive

/-- Settles O33: outside Startup and Steady `loopStep` is the identity. -/
theorem loopRestsInOffFailedHalted : Obligations.LoopRestsInOffFailedHalted := by
  unfold Obligations.LoopRestsInOffFailedHalted
  intro rest s ho hturns hrests
  rw [step_loop ho hturns]
  rcases hrests with hphase | hphase | hphase <;> simp only [loopStep, hphase]

/-! ## Showing an image under the grant -/

/-- An image shown in an operation of the loop that goes on to phase `p`: the grant is free again, and
only image and phase have changed. -/
theorem loopOperation_showed {f : State → State} {es : List PinEvent} {g : Vector Byte 7} {p : Phase}
    {s : State} (ho : s.owner = .none)
    (hf : f (takeGrant .loop s) = { showed es g (takeGrant .loop s) with phase := p }) :
    loopOperation f s = showed es g { s with phase := p } := by
  rw [loopOperation, hf]
  simp only [release, showed, drove, takeGrant, ho]

theorem loopOperation_showText (t : Str) (p : Phase) {s : State} (ho : s.owner = .none) :
    loopOperation (fun u => { showText t u with phase := p }) s =
      showed (gridEvents s.cfg s.mode (renderGrid s.cfg s.mode t)) (renderGrid s.cfg s.mode t)
        { s with phase := p } :=
  loopOperation_showed ho (by rw [showText_showed]; rfl)

/-! ## The startup frames -/

/-- A turn of the loop in Startup(k) with no stop request is frame step `k`. -/
theorem step_startup {rest : List Agent} {k : Fin 12} {s : State} (ho : s.owner = .none)
    (hturns : s.turns = .loop :: rest) (hphase : s.phase = .startup k) (hreq : s.stopReq = false) :
    step s = .next (frameStep k { s with turns := rest }) := by
  rw [step_loop ho hturns]
  simp only [loopStep, hphase, hreq, Bool.false_eq_true, if_false]

/-- Each frame before the last shows its text, goes on to the next frame, and pauses (R156). -/
theorem frameStep_shows {k j : Fin 12} {s : State} (ho : s.owner = .none) (hj : j.val = k.val + 1) :
    ∃ (text : Str) (pause : Pause),
      (k.val ≤ 9 → pause = .startupHold ∧ text = frameString k) ∧
      (k.val = 10 → pause = .bannerHold ∧ text = s.cfg.banner) ∧
      frameStep k s = pacing pause
        (showed (gridEvents s.cfg s.mode (renderGrid s.cfg s.mode text))
          (renderGrid s.cfg s.mode text) { s with phase := .startup j }) := by
  by_cases hdigit : k.val ≤ 9
  · have hnext : k + 1 = j := Fin.ext (by rw [Fin.val_add_one_of_lt' (by omega), hj])
    refine ⟨frameString k, .startupHold, fun _ => ⟨rfl, rfl⟩, fun h => by omega, ?_⟩
    rw [frameStep, if_pos hdigit, hnext, loopOperation_showText _ _ ho]
  · have hbanner : k.val = 10 := by omega
    obtain rfl : j = 11 := Fin.ext (by rw [hj, hbanner]; rfl)
    refine ⟨s.cfg.banner, .bannerHold, fun h => absurd h hdigit, fun _ => ⟨rfl, rfl⟩, ?_⟩
    rw [frameStep, if_neg hdigit, if_pos hbanner]
    exact congrArg _ (loopOperation_showText s.cfg.banner (.startup 11) ho)

/-- Settles O28: `frameStep_shows`, and `frameString` written out. -/
theorem frameStepShowsDigitsThenBanner : Obligations.FrameStepShowsDigitsThenBanner := by
  unfold Obligations.FrameStepShowsDigitsThenBanner
  intro k j rest s ho hturns hphase hreq hj
  obtain ⟨text, pause, hdigit, hbanner, hframe⟩ :=
    frameStep_shows (s := { s with turns := rest }) ho hj
  refine ⟨gridEvents s.cfg s.mode (renderGrid s.cfg s.mode text), text, pause, hdigit, hbanner,
    (gridOut_eq ..).symm, carries_grid .., _, rfl, ?_⟩
  rw [step_startup ho hturns hphase hreq, hframe]
  rfl

/-- Frame 11 blanks the display and enters Steady (R128, R157). -/
theorem frameStep_last {s : State} (ho : s.owner = .none) :
    frameStep 11 s =
      showed (gridEvents s.cfg s.mode blankGrid) blankGrid { s with phase := .steady } := by
  have hclear : frameStep 11 s = loopOperation (fun u => { clearDisp u with phase := .steady }) s := rfl
  rw [hclear]
  exact loopOperation_showed ho (by rw [clearDisp_showed]; rfl)

/-- Settles O29: `frameStep_last` at the loop's turn. -/
theorem lastFrameClearsAndEntersSteady : Obligations.LastFrameClearsAndEntersSteady := by
  unfold Obligations.LastFrameClearsAndEntersSteady
  intro rest s ho hturns hphase hreq
  refine ⟨gridEvents s.cfg s.mode blankGrid, (gridOut_eq ..).symm, ?_, ?_⟩
  · rw [← gridTxs_blank]
    exact carries_grid ..
  · rw [step_startup ho hturns hphase hreq, frameStep_last (s := { s with turns := rest }) ho]
    rfl

/-! ## The time iteration -/

/-- The Clock's answer comes from `clockIn` or from a free draw, whoever has the grant or the turn
(R163). -/
theorem usedClock_eq (s : State) : ∃ l n, ∀ o ts,
    usedClock { s with owner := o, turns := ts } =
      { s with owner := o, turns := ts, clockIn := l, draws := n } := by
  cases s.clockIn with
  | nil => exact ⟨[], s.draws + 1, fun _ _ => rfl⟩
  | cons t l => exact ⟨l, s.draws, fun _ _ => rfl⟩

theorem usedClock_withTurns (ts : List Agent) (s : State) :
    usedClock { s with turns := ts } = { usedClock s with turns := ts } := by
  obtain ⟨l, n, hused⟩ := usedClock_eq s
  have hself : usedClock s = { s with clockIn := l, draws := n } := hused s.owner s.turns
  rw [hself]
  exact hused s.owner ts

/-- A time iteration shows the Clock's next answer and pauses (R159). -/
theorem timeIter_shows {s : State} (ho : s.owner = .none) :
    timeIter s = pacing .timePause
      (showed (gridEvents s.cfg s.mode (renderGrid s.cfg s.mode (timeString (clockStream s))))
        (renderGrid s.cfg s.mode (timeString (clockStream s))) (usedClock s)) := by
  obtain ⟨l, n, hused⟩ := usedClock_eq s
  have hself : usedClock s = { s with clockIn := l, draws := n } := hused s.owner s.turns
  have hgranted : usedClock (takeGrant .loop s) = takeGrant .loop (usedClock s) := by
    rw [hself]
    exact hused .loop s.turns
  have hshown := loopOperation_showText (timeString (clockStream s)) s.phase
    (s := { s with clockIn := l, draws := n }) ho
  rw [timeIter]
  simp only [loopOperation, takeClock_eq, hgranted]
  rw [hself]
  exact congrArg _ hshown

/-- Settles O30: `timeIter_shows` at the loop's turn. -/
theorem timeIterationShowsTheClock : Obligations.TimeIterationShowsTheClock := by
  unfold Obligations.TimeIterationShowsTheClock
  intro rest s ho hturns hphase hreq htime
  have hloop : loopStep { s with turns := rest } = timeIter { s with turns := rest } := by
    simp only [loopStep, hphase, hreq, htime, Bool.false_eq_true, if_false, if_true]
  refine ⟨gridEvents s.cfg s.mode (renderGrid s.cfg s.mode (timeString (clockStream s))),
    renderGrid s.cfg s.mode (timeString (clockStream s)), _, rfl, (gridOut_eq ..).symm,
    carries_grid .., rfl, ?_⟩
  rw [step_loop ho hturns, hloop, timeIter_shows (s := { s with turns := rest }) ho, usedClock_withTurns]
  rfl

/-! ## The scan iteration -/

/-- A decoded key is queued unless the queue is full; without one the queue stays (R142, R160). -/
theorem queueKey_atMostOne (key : Option Chr) (s : State) : ∃ q,
    (∀ c, key = some c →
      q = if s.queue.length < s.cfg.queueCap.val then s.queue ++ [c] else s.queue) ∧
    (key = none → q = s.queue) ∧ queueKey key s = { s with queue := q } := by
  cases key with
  | none => exact ⟨s.queue, nofun, fun _ => rfl, rfl⟩
  | some c => exact ⟨pushQueue s.cfg c s.queue, fun _ hc => Option.some.inj hc ▸ rfl, nofun, rfl⟩

/-- A scan iteration is one SCANKEYS, what `queueKey` does with the key, and the pause (R160). -/
theorem scanIter_scans {s : State} (ho : s.owner = .none) : ∃ q,
    (∀ c, decodeKey s.cfg.keymap ((List.range 5).map (deviceByte s)) = some c →
      q = if s.queue.length < s.cfg.queueCap.val then s.queue ++ [c] else s.queue) ∧
    (decodeKey s.cfg.keymap ((List.range 5).map (deviceByte s)) = none → q = s.queue) ∧
    scanIter s = usedSamples 40
      { s with
        queue := q, pins := Pins.idle, trace := s.trace ++ scanEvents s ++ [.pause .scanPause] } := by
  obtain ⟨q, hkey, hnone, hqueue⟩ := queueKey_atMostOne
    (decodeKey s.cfg.keymap ((List.range 5).map (deviceByte s))) (scanKeys (takeGrant .loop s)).2
  rw [scanKeys_idle] at hkey hnone hqueue
  refine ⟨q, hkey, hnone, ?_⟩
  have hscan : scanIter s = pacing .scanPause (release (queueKey
      (decodeKey s.cfg.keymap (scanKeys (takeGrant .loop s)).1) (scanKeys (takeGrant .loop s)).2)) :=
    rfl
  have hbytes : (List.range 5).map (deviceByte (takeGrant .loop s)) =
      (List.range 5).map (deviceByte s) := rfl
  have hevents : scanEvents (takeGrant .loop s) = scanEvents s := rfl
  rw [hscan, scanKeys_idle, hbytes, hqueue, hevents]
  simp only [pacing, emit, release, usedSamples, takeGrant, ho, pinsAfter, List.foldl, pinsApply]

/-- Settles O31: `scanIter_scans` at the loop's turn. -/
theorem scanIterationQueuesAtMostOneKey : Obligations.ScanIterationQueuesAtMostOneKey := by
  unfold Obligations.ScanIterationQueuesAtMostOneKey
  intro rest s ho hturns hphase hreq htime
  have hloop : loopStep { s with turns := rest } = scanIter { s with turns := rest } := by
    simp only [loopStep, hphase, hreq, htime, Bool.false_eq_true, if_false]
  obtain ⟨q, hkey, hnone, hscan⟩ := scanIter_scans (s := { s with turns := rest }) ho
  refine ⟨scanEvents s, q, (scanOut_eq s).symm, carries_scan s, hkey, hnone, ?_⟩
  rw [step_loop ho hturns, hloop, hscan]
  rfl

end Sys2Proof.PollingLoop

namespace Sys2Proof.ControlSurface

open Sys2Proof.Machine Sys2Proof.Safety Sys2Proof.Encoding Sys2Proof.WireBytes
  Sys2Proof.DisplayEncoding

/-! # The control surface (R176 to R187) -/

/-! ## Its requests in a running engine (R175) -/

section Running

variable {s : State} (hruns : engineRuns s.phase = true)
include hruns

theorem exec_getbrt :
    exec .getbrt s = .next (respondOk (.b8 (BitVec.ofNat 8 s.brightness.val)) s) := by
  rw [exec, execGetbrt, serve_running _ s hruns]

theorem exec_setbrt (v : Int) :
    exec (.setbrt v) s =
      .next (respondOk .none (initSeq { s with brightness := clampBright v })) := by
  rw [exec, execSetbrt, serve_running _ s hruns]

theorem exec_gettm : exec .gettm s = .next (respondOk (.b8 (flagByte s.timeMode)) s) := by
  rw [exec, execGettm, serve_running _ s hruns]

theorem exec_settm (f : Byte) :
    exec (.settm f) s = .next (respondOk .none (setTimeMode (isOn f) s)) := by
  rw [exec, execSettm, serve_running _ s hruns]

theorem exec_gettxt : exec .gettxt s = .next (respondOk (.str s.text) s) := by
  rw [exec, execGettxt, serve_running _ s hruns]

theorem exec_settxt (text : Str) :
    exec (.settxt text) s = .next (respondOk .none (showText text { s with text := text })) := by
  rw [exec, execSettxt, serve_running _ s hruns]

theorem exec_getmode : exec .getmode s = .next (respondOk (.b8 (selOfMode s.mode)) s) := by
  rw [exec, execGetmode, serve_running _ s hruns]

theorem exec_setmode_of_some {sel : Byte} {m : Mode} (hsel : modeOfSel sel = some m) :
    exec (.setmode sel) s = .next (respondOk .none (initSeq { s with mode := m })) := by
  rw [exec, execSetmode, serve_running _ s hruns, hsel]

theorem exec_setmode_of_none {sel : Byte} (hsel : modeOfSel sel = none) :
    exec (.setmode sel) s = .next (fail .eMalformed s) := by
  rw [exec, execSetmode, serve_running _ s hruns, hsel]

theorem exec_popkey :
    exec .popkey s =
      .next (respondOk (.opt8 s.queue.head?) { s with queue := s.queue.tail }) := by
  rw [exec, execPopkey, serve_running _ s hruns]

theorem exec_clrkeys :
    exec .clrkeys s = .next (respondOk .none (clearDisp { s with queue := [] })) := by
  rw [exec, execClrkeys, serve_running _ s hruns]

theorem exec_showkeys : exec .showkeys s = .next (respondOk (.str s.queue) s) := by
  rw [exec, execShowkeys, serve_running _ s hruns]

theorem exec_wrraw_of_some {t : Str} {bs : List Byte} (hbytes : hexBytes t = some bs) :
    exec (.wrraw t) s = .next (respondOk .none (wrRawB bs s)) := by
  rw [exec, execWrraw, serve_running _ s hruns, hbytes]

theorem exec_wrraw_of_none {t : Str} (hbytes : hexBytes t = none) :
    exec (.wrraw t) s = .next (fail .eMalformed s) := by
  rw [exec, execWrraw, serve_running _ s hruns, hbytes]

end Running

/-! ## The getters -/

/-- Settles O14: each getter in the envelope. -/
theorem gettersAnswerAndChangeNothing : Obligations.GettersAnswerAndChangeNothing := by
  unfold Obligations.GettersAnswerAndChangeNothing
  exact ⟨fun s hruns => ⟨exec_getbrt hruns, exec_gettm hruns, exec_gettxt hruns,
      exec_getmode hruns, exec_showkeys hruns⟩,
    ⟨needsEngine nofun nofun, rfl, rfl⟩, ⟨needsEngine nofun nofun, rfl, rfl⟩,
    ⟨needsEngine nofun nofun, rfl, rfl⟩, ⟨needsEngine nofun nofun, rfl, rfl⟩,
    needsEngine nofun nofun, rfl, rfl⟩

/-! ## SETBRT and SETMODE -/

theorem clampBright_val (v : Int) : ((clampBright v).val : Int) = max 0 (min v 15) := by
  unfold clampBright
  split
  · next hnegative => simp only [Fin.val_zero]; omega
  · split
    · next habove => omega
    · next hwithin => simp only [Fin.val_ofNat]; omega

/-- Cutting eight bits out of the word of an integer divides and reduces the integer (R81). -/
theorem extractByte_ofInt (v : Int) {k : Nat} (hk : k < 4) :
    (BitVec.ofInt 32 v).extractLsb' (8 * k) 8 = BitVec.ofInt 8 (v / 256 ^ k) := by
  apply BitVec.eq_of_toNat_eq
  simp only [BitVec.extractLsb'_toNat, BitVec.toNat_ofInt, Nat.shiftRight_eq_div_pow]
  interval_cases k <;> simp <;> omega

theorem i32Bytes_eq (v : Int) :
    i32Bytes v = (List.range 4).map fun k => BitVec.ofInt 8 (v / 256 ^ k) := by
  have hbyte : ∀ k ∈ List.range 4,
      (BitVec.ofInt 32 v).extractLsb' (8 * k) 8 = BitVec.ofInt 8 (v / 256 ^ k) :=
    fun k hk => extractByte_ofInt v (List.mem_range.mp hk)
  exact List.map_congr_left hbyte

/-- Settles O15: `initSeq_drove` with the clamped value in force, in the envelope. -/
theorem setBrtClampsAndReissuesInit : Obligations.SetBrtClampsAndReissuesInit := by
  unfold Obligations.SetBrtClampsAndReissuesInit
  refine ⟨fun v s hruns => ⟨clampBright v, initEvents s.cfg s.mode (clampBright v),
      clampBright_val v, ?_, (initOut_eq ..).symm, carries_init ..⟩,
    fun v => ⟨needsEngine nofun nofun, fun hlow hhigh => ?_⟩⟩
  · rw [exec_setbrt hruns, initSeq_drove]
    rfl
  · rw [← i32Bytes_eq]
    exact ⟨rfl, decode_encode (.setbrt v) ((i32Fits_iff v).mpr ⟨hlow, hhigh⟩)⟩

theorem modeOfSel_selOfMode (m : Mode) : modeOfSel (selOfMode m) = some m := by
  cases m <;> rfl

theorem modeOfSel_of_four_le {sel : Byte} (h : 4 ≤ sel.toNat) : modeOfSel sel = none := by
  unfold modeOfSel
  split
  case h_5 => rfl
  all_goals exact absurd h (by decide)

/-- The table of R88 pairs each mode with its selector. -/
theorem eq_selOfMode_of_mem {sel : Byte} {m : Mode}
    (h : (sel, m) ∈ ([(0, .m4x13), (1, .m5x12), (2, .m6x11), (3, .m7x10)] : List (Byte × Mode))) :
    sel = selOfMode m := by
  simp only [List.mem_cons, Prod.mk.injEq, List.not_mem_nil, or_false] at h
  rcases h with ⟨rfl, rfl⟩ | ⟨rfl, rfl⟩ | ⟨rfl, rfl⟩ | ⟨rfl, rfl⟩ <;> rfl

/-- Settles O18: `initSeq_drove` under the new mode, in the envelope; the other selectors name no
mode. -/
theorem setModeSelectsOrRejects : Obligations.SetModeSelectsOrRejects := by
  unfold Obligations.SetModeSelectsOrRejects
  refine ⟨fun sel m s hruns hmem => ⟨initEvents s.cfg m s.brightness, ?_, (initOut_eq ..).symm,
      carries_init ..⟩,
    fun sel s hruns hbig => exec_setmode_of_none hruns (modeOfSel_of_four_le hbig),
    fun sel => ⟨needsEngine nofun nofun, rfl, rfl⟩⟩
  rw [eq_selOfMode_of_mem hmem, exec_setmode_of_some hruns (modeOfSel_selOfMode m), initSeq_drove]
  rfl

/-! ## SETTM, SETTXT and CLRKEYS -/

/-- Settles O16: on sets the flag; off is `showText_showed` of the stored text. -/
theorem setTmOffRedrawsStoredText : Obligations.SetTmOffRedrawsStoredText := by
  unfold Obligations.SetTmOffRedrawsStoredText
  refine ⟨fun f s hruns => ⟨fun hon => ?_, fun hoff => ?_⟩,
    fun f => ⟨needsEngine nofun nofun, rfl, rfl⟩⟩
  · have hflag : isOn f = true := bne_iff_ne.mpr hon
    rw [exec_settm hruns, hflag]
    rfl
  · refine ⟨gridEvents s.cfg s.mode (renderGrid s.cfg s.mode s.text), ?_, (gridOut_eq ..).symm,
      carries_grid ..⟩
    have hredraw : setTimeMode (isOn f) s = showText s.text { s with timeMode := false } := by
      rw [hoff]
      rfl
    rw [exec_settm hruns, hredraw, showText_showed]
    rfl

/-- Settles O17: `showText_showed` in the envelope. -/
theorem setTxtStoresRendersAndSends : Obligations.SetTxtStoresRendersAndSends := by
  unfold Obligations.SetTxtStoresRendersAndSends
  refine ⟨fun text s hruns => ⟨gridEvents s.cfg s.mode (renderGrid s.cfg s.mode text), ?_,
      (gridOut_eq ..).symm, carries_grid ..⟩,
    fun text => ⟨needsEngine nofun nofun,
      fun hfits => ⟨rfl, decode_encode (.settxt text) (decide_eq_true hfits)⟩⟩⟩
  rw [exec_settxt hruns, showText_showed]
  rfl

/-- Settles O20: `clearDisp_showed` in the envelope. -/
theorem clrKeysEmptiesQueueAndBlanks : Obligations.ClrKeysEmptiesQueueAndBlanks := by
  unfold Obligations.ClrKeysEmptiesQueueAndBlanks
  refine ⟨fun s hruns => ⟨gridEvents s.cfg s.mode blankGrid, ?_, (gridOut_eq ..).symm, ?_⟩,
    needsEngine nofun nofun, rfl, rfl⟩
  · rw [exec_clrkeys hruns, clearDisp_showed]
    rfl
  · rw [← gridTxs_blank]
    exact carries_grid ..

/-! ## POPKEY -/

/-- Settles O19: head and tail of the queue, in the envelope. -/
theorem popKeyTakesTheOldest : Obligations.PopKeyTakesTheOldest := by
  unfold Obligations.PopKeyTakesTheOldest
  refine ⟨fun c q s hruns hqueue => ?_, fun s hruns hempty => ?_, needsEngine nofun nofun, rfl, rfl⟩
  · rw [exec_popkey hruns, hqueue]
    rfl
  · have hsame : { s with queue := s.queue.tail } = s := by rw [hempty, List.tail_nil, ← hempty]
    rw [exec_popkey hruns, hsame, hempty]
    rfl

/-! ## WRRAW -/

/-- Settles O22: the verdict of HEXBYTES (O21), and `wrRawB_drove` for its 14 bytes. -/
theorem wrRawIsAllOrNothing : Obligations.WrRawIsAllOrNothing := by
  unfold Obligations.WrRawIsAllOrNothing
  obtain ⟨haccept, hrefuse⟩ := hexBytesAcceptsTwentyEightHexCharacters
  refine ⟨fun t s hruns hlength hhex => ?_,
    fun t s hruns hbad => exec_wrraw_of_none hruns (hrefuse t hbad),
    fun t => ⟨needsEngine nofun nofun,
      fun hfits => ⟨rfl, decode_encode (.wrraw t) (decide_eq_true hfits)⟩⟩⟩
  obtain ⟨bs, hbytes, hfourteen, hpairs⟩ := haccept t hlength hhex
  refine ⟨bs, rawEvents s.cfg s.mode bs, hfourteen, hpairs, ?_, (rawOut_eq ..).symm, carries_raw ..⟩
  rw [exec_wrraw_of_some hruns hbytes, wrRawB_drove]
  rfl

end Sys2Proof.ControlSurface

namespace Sys2Proof.RequestService

open Sys2Proof.Machine Sys2Proof.FormCheck

/-! # The service of a request that decodes (R62, R175) -/

/-! ## The oldest request of a caller -/

/-- The oldest request of caller `c` is the first of its own, whatever the others issued before it
(R62 d). -/
theorem takeRequest_append {c : Nat} {pre : List Request} {r : Request} (post : List Request)
    (hpre : ∀ q ∈ pre, q.caller ≠ c) (hr : r.caller = c) :
    takeRequest c (pre ++ r :: post) = some (r, pre ++ post) := by
  induction pre with
  | nil => exact if_pos hr
  | cons q pre ih =>
    obtain ⟨hq, hothers⟩ := List.forall_mem_cons.mp hpre
    rw [List.cons_append, takeRequest, if_neg hq, ih hothers]
    rfl

theorem serveRequest_of_ok {r : Request} {i : Instr} (h : decode r.channel r.bytes = .ok i)
    (s : State) : serveRequest r s = finishServe (exec i s) := by
  simp only [serveRequest, h]

/-- Settles O41: `takeRequest_append` finds the request, and its bytes decode. -/
theorem stepServesTheDecodedRequest : Obligations.StepServesTheDecodedRequest := by
  unfold Obligations.StepServesTheDecodedRequest
  intro c r later pre post i s ho hturns hwait hpending hr hpre hdecode
  have htake : takeRequest c s.pending = some (r, pre ++ post) := by
    rw [hpending, takeRequest_append post hpre hr]
  rw [step_of_takeRequest ho hturns hwait htake, serveRequest_of_ok hdecode]

/-! ## The issue of a word (log 8) -/

/-- `n` raised above the number of `o`, where `o` is a caller: the fold step of `freshCaller`. -/
def raisedAbove (n : Nat) (o : Owner) : Nat :=
  match o with
  | .caller i => max n (i + 1)
  | _ => n

theorem freshCaller_eq (s : State) : freshCaller s = s.stopWait.foldl raisedAbove 0 := rfl

theorem le_raisedAbove (n : Nat) (o : Owner) : n ≤ raisedAbove n o := by
  cases o with
  | caller i => exact Nat.le_max_left n (i + 1)
  | none | loop => exact Nat.le_refl n

theorem le_foldl_raisedAbove (l : List Owner) (n : Nat) : n ≤ l.foldl raisedAbove n := by
  induction l generalizing n with
  | nil => exact Nat.le_refl n
  | cons o l ih => exact (le_raisedAbove n o).trans (ih _)

theorem lt_foldl_raisedAbove {l : List Owner} {i : Nat} (h : Owner.caller i ∈ l) (n : Nat) :
    i < l.foldl raisedAbove n := by
  induction l generalizing n with
  | nil => cases h
  | cons o l ih =>
    rcases List.mem_cons.mp h with rfl | hlater
    · exact (Nat.le_max_right n (i + 1)).trans (le_foldl_raisedAbove l _)
    · exact ih hlater _

/-- The fresh caller waits for no STOP. -/
theorem freshCaller_not_mem (s : State) : Owner.caller (freshCaller s) ∉ s.stopWait := by
  intro hmem
  have hlt := lt_foldl_raisedAbove hmem 0
  rw [← freshCaller_eq] at hlt
  exact Nat.lt_irrefl _ hlt

/-- A request that has just been issued is the one the next step serves. -/
theorem step_issueNext {ch : Channel} {bs : List Byte} {i : Instr} (s : State)
    (hdecode : decode ch bs = .ok i) :
    step (issueNext ch bs s) = finishServe (exec i { s with owner := .caller (freshCaller s) }) :=
  stepServesTheDecodedRequest (freshCaller s) ⟨freshCaller s, ch, bs⟩ s.turns [] s.pending i
    (issueNext ch bs s) rfl rfl (freshCaller_not_mem s) rfl rfl nofun hdecode

/-- A word that decodes gives the channel and bytes of its instruction. -/
theorem decode_layoutWord {nbits w : Nat} {i : Instr} (h : decodeTableWord nbits w = some i) :
    decode (layoutWord nbits w).1 (layoutWord nbits w).2 = .ok i := by
  have hoption : (decode (layoutWord nbits w).1 (layoutWord nbits w).2).toOption = some i := h
  cases hdecode : decode (layoutWord nbits w).1 (layoutWord nbits w).2 with
  | error e => rw [hdecode] at hoption; cases hoption
  | ok j => rw [hdecode] at hoption; exact congrArg _ (Option.some.inj hoption)

/-- Settles O42: withFetchWord issues the word's bytes. -/
theorem fetchWordIsServedNext : Obligations.FetchWordIsServedNext := by
  unfold Obligations.FetchWordIsServedNext
  exact fun _ _ _ s hword => step_issueNext s (decode_layoutWord hword)

end Sys2Proof.RequestService

namespace Sys2Proof.Lifecycle

open Sys2Proof.Machine Sys2Proof.Safety Sys2Proof.StepEffects Sys2Proof.Initial
  Sys2Proof.Animation Sys2Proof.PollingLoop Sys2Proof.RequestService

/-! # Engine start and shutdown (R188, R189) -/

/-! ## START -/

/-- INITSEQ for the reset record follows the four idle events (R188, R231). -/
theorem initSeq_startReset (s : State) :
    initSeq (startReset s) =
      { s with
        mode := .m6x11, brightness := 10, grid := Vector.replicate 7 0x00#8, text := [],
        timeMode := false, queue := [], stopReq := false, renderN := 0,
        pins := ⟨true, true, (s.cfg.cmdBright[10]).getLsbD 7, .output⟩,
        trace := s.trace ++ idleOut ++ initEvents s.cfg .m6x11 10 } := by
  rw [initSeq_drove, startReset_eq]
  rfl

/-- Settles O23: the cases of START; with the lines, `initSeq_startReset`. -/
theorem startCreatesTheEngine : Obligations.StartCreatesTheEngine := by
  unfold Obligations.StartCreatesTheEngine
  refine ⟨fun f s hoff hf => ⟨initEvents s.cfg .m6x11 10, 0, ?_, (initOut_eq ..).symm,
    carries_init ..⟩, fun s hoff => ?_, fun f s hrunning => ?_, fun f => ⟨rfl, rfl⟩⟩
  · rw [execStart_off hoff hf, initSeq_startReset]
  · rcases execStart_cases 0 s with ⟨hrunning, -⟩ | ⟨-, -, he⟩ | ⟨-, hlines, -⟩
    · exact absurd hoff hrunning
    · exact he
    · exact absurd rfl hlines
  · rcases execStart_cases f s with ⟨-, he⟩ | ⟨hoff, -, -⟩ | ⟨hoff, -, -⟩
    · exact he
    · exact absurd hoff hrunning
    · exact absurd hoff hrunning

/-! ## STOP -/

theorem execStop_running {s : State} (hruns : engineRuns s.phase = true) :
    exec .stop s = .next { s with stopReq := true, stopWait := s.stopWait ++ [s.owner] } := by
  rcases execStop_cases s with ⟨hoff, -⟩ | ⟨hfailed, -⟩ | ⟨-, he⟩
  · rw [hoff] at hruns; cases hruns
  · rw [hfailed] at hruns; cases hruns
  · exact he

/-- The turn of a caller whose STOP waits is that STOP's second operation, if it is enabled (R189). -/
theorem step_of_waiting {c : Nat} {rest : List Agent} {s : State} (ho : s.owner = .none)
    (hturns : s.turns = .caller c :: rest) (hwait : Owner.caller c ∈ s.stopWait) :
    step s = .next (resumeStop c { s with turns := rest }) := by
  simp only [step, ho, if_true, nextTurn, hturns, agentTurn, callerTurn, if_pos hwait]

/-- STOP's second operation in Halted: the lines idle, the engine gone, one OK (R189). -/
theorem resumeStop_halted (c : Nat) {s : State} (ho : s.owner = .none) (hphase : s.phase = .halted) :
    resumeStop c s =
      { s with
        stopWait := s.stopWait.erase (.caller c), pins := Pins.idle, phase := .off,
        stopReq := false, trace := s.trace ++ idleOut,
        responses := s.responses ++ [⟨.caller c, .ok, .none⟩] } := by
  simp only [resumeStop, stopReady, hphase, if_true, stopSecond, takeGrant, reduceCtorEq, if_false,
    respondOk, respond, emit, pinsAfter_idleEvents, release, ho]
  rfl

/-- STOP's second operation in Off: another STOP has finished first (R189). -/
theorem resumeStop_off (c : Nat) {s : State} (ho : s.owner = .none) (hphase : s.phase = .off) :
    resumeStop c s =
      { s with
        stopWait := s.stopWait.erase (.caller c),
        responses := s.responses ++ [⟨.caller c, .eNotRunning, .none⟩] } := by
  simp only [resumeStop, stopReady, hphase, if_true, stopSecond, takeGrant, fail, respond, release,
    ho]

/-- In any other phase the caller waits on. -/
theorem resumeStop_waits (c : Nat) {s : State} (hhalted : s.phase ≠ .halted) (hoff : s.phase ≠ .off) :
    resumeStop c s = s := by
  rcases resumeStop_cases c s with he | ⟨hoff', -⟩ | ⟨hhalted', -⟩
  · exact he
  · exact absurd hoff' hoff
  · exact absurd hhalted' hhalted

/-- Settles O24: the cases of the first operation, and of the second at the waiting caller's turn. -/
theorem stopTakesTwoOperations : Obligations.StopTakesTwoOperations := by
  unfold Obligations.StopTakesTwoOperations
  refine ⟨fun s hoff => ?_, fun s hfailed => ?_, fun s hruns => execStop_running hruns, ⟨rfl, rfl⟩,
    fun c rest s ho hturns hwait => ?_⟩
  · rw [exec, execStop, hoff]
    rfl
  · rw [exec, execStop, hfailed]
    rfl
  · rw [step_of_waiting ho hturns hwait]
    refine ⟨fun hhalted => ?_, fun hoff => ?_, fun hhalted hoff => ?_⟩
    · exact congrArg _ (resumeStop_halted c (s := { s with turns := rest }) ho hhalted)
    · exact congrArg _ (resumeStop_off c (s := { s with turns := rest }) ho hoff)
    · exact congrArg _ (resumeStop_waits c hhalted hoff)

/-! ## From a STOP request to Off -/

/-- `s` once caller `c`'s STOP has been taken from the requests and waits, with turns `ts` to come and the
engine in phase `p` (R189). -/
def stopping (c : Nat) (ts : List Agent) (rest : List Request) (p : Phase) (s : State) : State :=
  { s with
    turns := ts, pending := rest, phase := p, stopReq := true,
    stopWait := s.stopWait ++ [.caller c] }

/-- The first operation of a STOP, as a step. -/
theorem step_stop_running {c : Nat} {later : List Agent} {rest : List Request} {s : State}
    (ho : s.owner = .none) (hruns : engineRuns s.phase = true) (hwait : Owner.caller c ∉ s.stopWait)
    (hturns : s.turns = .caller c :: later)
    (hpending : s.pending = { caller := c, channel := .port, bytes := [0x7F#8] } :: rest) :
    step s = .next (stopping c later rest s.phase s) := by
  have hserve : step s =
      finishServe (exec .stop { s with turns := later, pending := rest, owner := .caller c }) :=
    stepServesTheDecodedRequest c _ later [] rest .stop s ho hturns hwait hpending rfl nofun rfl
  have hexec := execStop_running
    (s := { s with turns := later, pending := rest, owner := .caller c }) hruns
  rw [hserve, hexec]
  simp only [finishServe, release, stopping, ho]

/-- The second operation of a STOP, as a step: nothing of the STOP is left but its effects. -/
theorem step_stopping_halted {c : Nat} {later : List Agent} {rest : List Request} {s : State}
    (ho : s.owner = .none) (hwait : Owner.caller c ∉ s.stopWait) :
    step (stopping c (.caller c :: later) rest .halted s) = .next
      { s with
        turns := later, pending := rest, phase := .off, stopReq := false, pins := Pins.idle,
        trace := s.trace ++ idleOut,
        responses := s.responses ++ [⟨.caller c, .ok, .none⟩] } := by
  have hmem : Owner.caller c ∈ s.stopWait ++ [.caller c] := List.mem_append_right _ List.mem_cons_self
  have herase : (s.stopWait ++ [Owner.caller c]).erase (.caller c) = s.stopWait := by
    rw [List.erase_append_right _ hwait, List.erase_cons_head, List.append_nil]
  have hstep : step (stopping c (.caller c :: later) rest .halted s) =
      .next (resumeStop c (stopping c later rest .halted s)) := step_of_waiting ho rfl hmem
  rw [hstep, resumeStop_halted c (s := stopping c later rest .halted s) ho rfl]
  simp only [stopping, herase]

/-- Settles O25: the request, the loop's halt step (O32), and STOP's second operation in Halted. -/
theorem stopThenHaltLeadsToOff : Obligations.StopThenHaltLeadsToOff := by
  unfold Obligations.StopThenHaltLeadsToOff
  intro c later rest s ho hactive hwait hturns hpending
  have hrequest : step s = .next (stopping c (.loop :: .caller c :: later) rest s.phase s) :=
    step_stop_running ho (engineRuns_of_loopActive hactive) hwait hturns hpending
  have hhalt : step (stopping c (.loop :: .caller c :: later) rest s.phase s) =
      .next (stopping c (.caller c :: later) rest .halted s) :=
    stopRequestHaltsTheLoop _ _ ho rfl hactive rfl
  rw [core_run_succ 2 hrequest, core_run_succ 1 hhalt,
    core_run_succ 0 (step_stopping_halted ho hwait)]
  rfl

end Sys2Proof.Lifecycle

namespace Sys2Proof.Failures

open Sys2Proof.Machine Sys2Proof.Safety Sys2Proof.StepEffects Sys2Proof.FormCheck
  Sys2Proof.RequestService Sys2Proof.WireBytes

/-! # Failures are answers (R203, R205, R210, R211) -/

/-! ## One response to every request -/

/-- The states that one response leads to from `s` (R210): OK after work that answers nobody; any
status but EFatalLines, with no value and `s` as it was; or EFatalLines, with which the phase becomes
Failed (R203). -/
inductive AnsweredOnce (s : State) : State → Prop where
  | ok (v : Value) {w : State} (hresponses : w.responses = s.responses) (howner : w.owner = s.owner) :
      AnsweredOnce s (respond .ok v w)
  | unchanged {st : Status} (hst : st ≠ .eFatalLines) : AnsweredOnce s (respond st .none s)
  | linesRefused : AnsweredOnce s (respond .eFatalLines .none { s with phase := .failed })

theorem execStart_answeredOnce (f : Byte) (s : State) :
    ∃ t, exec (.start f) s = .next t ∧ AnsweredOnce s t := by
  rcases execStart_cases f s with ⟨-, he⟩ | ⟨-, -, he⟩ | ⟨-, -, he⟩
  · exact ⟨_, he, .unchanged (by decide)⟩
  · exact ⟨_, he, .linesRefused⟩
  · exact ⟨_, he, .ok .none rfl rfl⟩

/-- STOP is answered at once where no engine runs (R189). -/
theorem execStop_answeredOnce {s : State} (hnone : engineRuns s.phase = false) :
    ∃ t, exec .stop s = .next t ∧ AnsweredOnce s t := by
  rcases execStop_cases s with ⟨-, he⟩ | ⟨-, he⟩ | ⟨hruns, -⟩
  · exact ⟨_, he, .unchanged (by decide)⟩
  · exact ⟨_, he, .ok .none rfl rfl⟩
  · exact absurd hruns (by rw [hnone]; decide)

theorem answeredOnce_of_servedOnce {s : State} {o : Host.Outcome State Fault Refusal}
    (h : ServedOnce s o) : ∃ t, o = .next t ∧ AnsweredOnce s t := by
  obtain ⟨st, v, w, he, hwork, rfl | ⟨rfl, rfl, rfl⟩⟩ := h
  · exact ⟨_, he, .ok v hwork.responses hwork.owner⟩
  · exact ⟨_, he, .unchanged (by decide)⟩

theorem exec_answeredOnce (i : Instr) (s : State) (hstop : i ≠ .stop ∨ engineRuns s.phase = false) :
    ∃ t, exec i s = .next t ∧ AnsweredOnce s t := by
  by_cases hstart : ∃ f, i = .start f
  · obtain ⟨f, rfl⟩ := hstart
    exact execStart_answeredOnce f s
  have hstart' : ∀ f, i ≠ .start f := not_exists.mp hstart
  cases hruns : engineRuns s.phase with
  | true =>
    have hother : i ≠ .stop := hstop.resolve_right (by rw [hruns]; decide)
    exact answeredOnce_of_servedOnce (exec_served i s hruns hstart' hother)
  | false =>
    by_cases hi : i = .stop
    · subst hi
      exact execStop_answeredOnce hruns
    · exact ⟨_, exec_not_running i s hruns hstart' hi, .unchanged (by decide)⟩

/-- Settles O36, by the three kinds of answer. -/
theorem failuresLeaveTheStateAsItWas : Obligations.FailuresLeaveTheStateAsItWas := by
  unfold Obligations.FailuresLeaveTheStateAsItWas
  intro i s hstop
  obtain ⟨t, he, hanswer⟩ := exec_answeredOnce i s hstop
  cases hanswer with
  | ok v hresponses howner =>
    refine ⟨.ok, v, _, he, ?_, absurd rfl, nofun, fun hne => absurd rfl hne⟩
    rw [respond_responses, hresponses, howner]
  | @unchanged st hst =>
    exact ⟨st, .none, _, he, rfl, fun _ => rfl, fun hlines => absurd hlines hst, fun _ _ => rfl⟩
  | linesRefused =>
    exact ⟨.eFatalLines, .none, _, he, rfl, fun _ => rfl, fun _ => rfl,
      fun _ hne => absurd rfl hne⟩

/-! ## Where no engine runs -/

/-- Settles O35: START and STOP alone need no engine, and STOP's first operation fails in Off (O24). -/
theorem withoutEngineOnlyStartAndStopSucceed : Obligations.WithoutEngineOnlyStartAndStopSucceed := by
  unfold Obligations.WithoutEngineOnlyStartAndStopSucceed
  obtain ⟨hstopOff, hstopFailed, -⟩ := Lifecycle.stopTakesTwoOperations
  refine ⟨fun i s hoff hstart => ?_, fun i s hfailed hstart hstop => ?_, hstopFailed⟩
  · by_cases hstop : i = .stop
    · subst hstop
      exact hstopOff s hoff
    · exact needsEngine hstart hstop s (by rw [hoff]; rfl)
  · exact needsEngine hstart hstop s (by rw [hfailed]; rfl)

/-! ## No step stops (R207, R211) -/

/-- The outcome is a next state: no fault and no refusal. -/
def GoesOn (o : Host.Outcome State Fault Refusal) : Prop := ∃ t, o = .next t

theorem exec_goesOn (i : Instr) (s : State) : GoesOn (exec i s) := by
  obtain ⟨t, he, -⟩ := exists_exec_performed i s
  exact ⟨t, he⟩

theorem GoesOn.finishServe {o : Host.Outcome State Fault Refusal} (h : GoesOn o) :
    GoesOn (finishServe o) := by
  obtain ⟨t, rfl⟩ := h
  exact ⟨release t, rfl⟩

/-- A request that does not decode is answered too (R83, R201). -/
theorem serveRequest_goesOn (r : Request) (s : State) : GoesOn (serveRequest r s) := by
  cases hdecode : decode r.channel r.bytes with
  | error e => exact ⟨_, serveRequest_of_error hdecode s⟩
  | ok i =>
    rw [serveRequest_of_ok hdecode]
    exact (exec_goesOn i s).finishServe

theorem callerTurn_goesOn (c : Nat) (s : State) : GoesOn (callerTurn c s) := by
  unfold callerTurn
  split
  · exact ⟨_, rfl⟩
  · split
    · exact ⟨_, rfl⟩
    · exact serveRequest_goesOn _ _

theorem agentTurn_goesOn (a : Agent) (s : State) : GoesOn (agentTurn a s) := by
  cases a with
  | loop => exact ⟨loopStep s, rfl⟩
  | caller c => exact callerTurn_goesOn c s

/-- Settles O43: with the grant free an agent takes its turn, otherwise everybody waits. -/
theorem everyStepGoesOn : Obligations.EveryStepGoesOn := by
  unfold Obligations.EveryStepGoesOn
  intro s
  by_cases hfree : s.owner = .none
  · rw [step, if_pos hfree]
    exact agentTurn_goesOn _ _
  · exact ⟨s, if_neg hfree⟩

end Sys2Proof.Failures

namespace Sys2Proof.DataLine

open Sys2Proof.Machine Sys2Proof.Safety

/-! # Where DATA rests (R242) -/

/-- From lines at rest a whole byte (R100), which touches CLOCK and DATA only, ends with the lines at
rest and DATA at its last bit. -/
theorem pins_after_byte {p : Pins} (hrest : LinesAtRest p) (d : Bool) :
    { p with clk := true, dio := d } = (⟨true, true, d, .output⟩ : Pins) := by
  obtain ⟨hstb, -, hdir⟩ := hrest
  rw [hstb, hdir]

/-- A strobe window that leaves DATA at `d` (R101, R122) needs only that DATA is an output. -/
theorem drove_pins {s : State} (hrest : LinesAtRest s.pins) (es : List PinEvent) (d : Bool) :
    (drove es d s).pins = ⟨true, true, d, .output⟩ := by
  obtain ⟨-, -, hdir⟩ := hrest
  simp only [drove, hdir]

/-- Settles O59: the pins of the whole next states of O1, O2, O6, O11 and O24; for START, of the reset
record and of the SENDCMD that INITSEQ ends with (log 19). -/
theorem dataKeepsTheLastLevelDriven : Obligations.DataKeepsTheLastLevelDriven := by
  unfold Obligations.DataKeepsTheLastLevelDriven
  obtain ⟨hsendbyte, -⟩ := SerialFraming.sendByteShiftsBitsLsbFirst
  obtain ⟨hsendcmd, -⟩ := SerialFraming.sendCmdIsOneCommandTransaction
  obtain ⟨hwrreg, -⟩ := DisplayEncoding.wrRegIsOneWriteTransaction
  obtain ⟨hscankeys, -⟩ := KeyMatrix.scanKeysReadsFiveBytesInOneWindow
  obtain ⟨-, -, -, -, hstop⟩ := Lifecycle.stopTakesTwoOperations
  refine ⟨fun b s hruns hrest => ?sendbyte, fun c s hruns hrest => ?sendcmd,
    fun a d s hruns hrest => ?wrreg, fun s hruns => ?scankeys, fun f s hoff hf => ⟨?reset, ?start⟩,
    fun i rest s ho hturns hwait hhalted => ?stop⟩
  case sendbyte =>
    obtain ⟨he, -⟩ := hsendbyte b s hruns
    exact ⟨_, he, pins_after_byte hrest _⟩
  case sendcmd =>
    obtain ⟨he, -⟩ := hsendcmd c s hruns
    exact ⟨_, he, drove_pins hrest (commandOut c) _⟩
  case wrreg =>
    obtain ⟨he, -⟩ := hwrreg a d s hruns
    exact ⟨_, he, drove_pins hrest (writeOut a d) _⟩
  case scankeys =>
    obtain ⟨es, he, -⟩ := hscankeys s hruns
    exact ⟨_, he, rfl⟩
  case reset => exact congrArg State.pins (startReset_eq s)
  case start =>
    rw [Initial.execStart_off hoff hf, Lifecycle.initSeq_startReset]
    exact ⟨_, rfl, ⟨rfl, rfl, rfl⟩, .rfl⟩
  case stop =>
    obtain ⟨he, -⟩ := hstop i rest s ho hturns hwait
    exact ⟨_, he hhalted, rfl⟩

end Sys2Proof.DataLine
